-- ==== Sys2Proof/Word.lean ====
section
/-! DEFINITION. The widths of the ITP: words, relative addresses, the double word of SHIFT, bytes of the model's memory. -/

namespace Sys2Proof

/-- A 24-bit word: central registers, control registers, memory locations (00_scope.md R2, R6). -/
abbrev Word := BitVec 24

/-- A 14-bit relative address: the program counter P and the field W (00_scope.md R6). -/
abbrev RelAddr := BitVec 14

/-- The pair A, B taken as one 48-bit register by SHIFT (10_state.md R22). -/
abbrev DoubleWord := BitVec 48

/-- A byte of the model's memory. The ITP itself has no bytes (20_memory.md R58). -/
abbrev Byte := BitVec 8

end Sys2Proof
end

