-- ==== Sys2Proof/Syntax.lean ====
section
/-! DEFINITION. The instructions of the ITP: one constructor for each row of spec/opcode_table.json, in the table's order. -/

namespace Sys2Proof

/-- The address part of an instruction word (30_encoding.md R81, R89): the index bit X, the indirect bit I and the word
address W. A normal indirect address word has the same three fields (R84). -/
structure Operand where
  x : Bool
  i : Bool
  w : RelAddr
  deriving DecidableEq, Repr

/-- The direct operand form: X = 0, I = 0, so that Q = W (30_encoding.md R89). -/
abbrev Operand.direct (w : RelAddr) : Operand := ⟨false, false, w⟩

/-- An instruction. The rows of format WORD carry the whole address part; the sub-case rows of SHIFT, RCH and UPS stand for
the words with X = 0 and I = 0 (30_encoding.md R91) and carry W, which is then Q. Bit 0 of the word takes no part in decoding
or execution (R82) and is not kept (log 12). -/
inductive Instr where
  /-- HLT, operation code 00B (R203). -/
  | hlt (a : Operand)
  /-- BRU, operation code 01B (R160). -/
  | bru (a : Operand)
  /-- ETR, operation code 02B (R144). -/
  | etr (a : Operand)
  /-- MRG, operation code 03B (R145). -/
  | mrg (a : Operand)
  /-- EOR, operation code 04B (R146). -/
  | eor (a : Operand)
  /-- NOP, operation code 05B (R200). -/
  | nop (a : Operand)
  /-- EXU, operation code 06B (R201). -/
  | exu (a : Operand)
  /-- STA, operation code 07B (R133). -/
  | sta (a : Operand)
  /-- STB, operation code 10B (R134). -/
  | stb (a : Operand)
  /-- STX, operation code 11B (R135). -/
  | stx (a : Operand)
  /-- BRX, operation code 12B (R161). -/
  | brx (a : Operand)
  /-- BRM, operation code 13B (R163). -/
  | brm (a : Operand)
  /-- UPOT, operation code 14B (R210). -/
  | upot (a : Operand)
  /-- UPIN, operation code 15B (R211). -/
  | upin (a : Operand)
  /-- RCH, operation code 16B (R180). -/
  | rch (a : Operand)
  /-- SKE, operation code 17B (R150). -/
  | ske (a : Operand)
  /-- BRR, operation code 20B (R164). -/
  | brr (a : Operand)
  /-- SKB, operation code 21B (R154). -/
  | skb (a : Operand)
  /-- SKN, operation code 22B (R155). -/
  | skn (a : Operand)
  /-- SUB, operation code 23B (R141). -/
  | sub (a : Operand)
  /-- ADD, operation code 24B (R140). -/
  | add (a : Operand)
  /-- SKR, operation code 25B (R156). -/
  | skr (a : Operand)
  /-- MIN, operation code 26B (R142). -/
  | min (a : Operand)
  /-- XMA, operation code 27B (R136). -/
  | xma (a : Operand)
  /-- ADM, operation code 30B (R143). -/
  | adm (a : Operand)
  /-- SHIFT, operation code 31B (R170). -/
  | shift (a : Operand)
  /-- SKM, operation code 32B (R151). -/
  | skm (a : Operand)
  /-- LDX, operation code 33B (R132). -/
  | ldx (a : Operand)
  /-- SKA, operation code 34B (R153). -/
  | ska (a : Operand)
  /-- SKG, operation code 35B (R152). -/
  | skg (a : Operand)
  /-- LDB, operation code 36B (R131). -/
  | ldb (a : Operand)
  /-- LDA, operation code 37B (R130). -/
  | lda (a : Operand)
  /-- EAX, operation code 40B (R202). -/
  | eax (a : Operand)
  /-- UPS, operation code 41B (R212). -/
  | ups (a : Operand)
  /-- POP, any word with the pop bit set; `a` holds the fields the hardware does not use (R95, R220). -/
  | pop (op : BitVec 6) (a : Operand)
  /-- ILLEGAL, operation codes 60B to 77B (R96 (c)). -/
  | illegal60 (op : BitVec 6) (a : Operand)
  /-- ILLEGAL, operation codes 50B to 57B (R96 (c)). -/
  | illegal50 (op : BitVec 6) (a : Operand)
  /-- ILLEGAL, operation codes 44B to 47B (R96 (c)). -/
  | illegal44 (op : BitVec 6) (a : Operand)
  /-- ILLEGAL, operation codes 42B and 43B (R96 (c)). -/
  | illegal42 (op : BitVec 6) (a : Operand)
  /-- LCY: SHIFT kind 0 with X = I = 0 (R171). -/
  | lcy (w : RelAddr)
  /-- LSH: SHIFT kind 1 with X = I = 0 (R172). -/
  | lsh (w : RelAddr)
  /-- RSH: SHIFT kind 2 with X = I = 0 (R173). -/
  | rsh (w : RelAddr)
  /-- LRSH: SHIFT kind 3 with X = I = 0 (R174). -/
  | lrsh (w : RelAddr)
  /-- RCY: SHIFT kind 4 with X = I = 0 (R175). -/
  | rcy (w : RelAddr)
  /-- SHIFT_TRAP: SHIFT kind 5 with X = I = 0 (R177). -/
  | shiftTrap5 (w : RelAddr)
  /-- SHIFT_TRAP: SHIFT kinds 6 and 7 with X = I = 0 (R177). -/
  | shiftTrap6 (w : RelAddr)
  /-- XCA: RCH sub-case 0B with X = I = 0 (R181). -/
  | xca (w : RelAddr)
  /-- CCA: RCH sub-case 1B with X = I = 0 (R182). -/
  | cca (w : RelAddr)
  /-- CLAB: RCH sub-case 2B with X = I = 0 (R183). -/
  | clab (w : RelAddr)
  /-- CLA: RCH sub-case 3B with X = I = 0 (R184). -/
  | cla (w : RelAddr)
  /-- CLB: RCH sub-case 4B with X = I = 0 (R185). -/
  | clb (w : RelAddr)
  /-- CLX: RCH sub-case 5B with X = I = 0 (R186). -/
  | clx (w : RelAddr)
  /-- CAB: RCH sub-case 6B with X = I = 0 (R187). -/
  | cab (w : RelAddr)
  /-- CBA: RCH sub-case 7B with X = I = 0 (R188). -/
  | cba (w : RelAddr)
  /-- XAB: RCH sub-case 10B with X = I = 0 (R189). -/
  | xab (w : RelAddr)
  /-- CBX: RCH sub-case 11B with X = I = 0 (R190). -/
  | cbx (w : RelAddr)
  /-- CXB: RCH sub-case 12B with X = I = 0 (R191). -/
  | cxb (w : RelAddr)
  /-- XXB: RCH sub-case 13B with X = I = 0 (R192). -/
  | xxb (w : RelAddr)
  /-- CXA: RCH sub-case 14B with X = I = 0 (R193). -/
  | cxa (w : RelAddr)
  /-- CAX: RCH sub-case 15B with X = I = 0 (R194). -/
  | cax (w : RelAddr)
  /-- XXA: RCH sub-case 16B with X = I = 0 (R195). -/
  | xxa (w : RelAddr)
  /-- CNA: RCH sub-case 17B with X = I = 0 (R196). -/
  | cna (w : RelAddr)
  /-- STR: UPS sub-case 0 with X = I = 0 (R213). -/
  | str (w : RelAddr)
  /-- UPR: UPS sub-case 1 with X = I = 0 (R216). -/
  | upr (w : RelAddr)
  /-- PRO: UPS sub-case 2 with X = I = 0 (R215). -/
  | pro (w : RelAddr)
  /-- UPS_UNDEFINED: UPS sub-case 3 with X = I = 0 (R214). -/
  | upsUndefined (w : RelAddr)
  deriving DecidableEq, Repr

end Sys2Proof
end

