-- ==== Sys2Proof/WellFormed.lean ====
section
/-! DEFINITION. Which terms of Instr stand for an instruction word: the checks that make decoding and encoding inverse. -/

namespace Sys2Proof

/-- The sub-case field of a direct SHIFT, `W[10:8]` (30_encoding.md R90, R92). -/
def kindOfAddress (w : RelAddr) : BitVec 3 := w.extractLsb' 8 3

/-- The sub-case field of a direct RCH, `W[11:8]` (30_encoding.md R90, R93). -/
def changeOfAddress (w : RelAddr) : BitVec 4 := w.extractLsb' 8 4

/-- The sub-case field of a direct UPS, `W[9:8]` (30_encoding.md R90, R94). -/
def signalOfAddress (w : RelAddr) : BitVec 2 := w.extractLsb' 8 2

/-- A SHIFT, RCH or UPS word with X = I = 0 belongs to its sub-case's row (30_encoding.md R91, R92 to R94). -/
def Operand.runTime (a : Operand) : Bool := a.x || a.i

/-- The term stands for an instruction word: a parent of sub-cases has X = 1 or I = 1, an illegal code lies in its row's
range, a sub-case's address holds the number of that sub-case. Every other term does. -/
def Instr.wellFormed : Instr → Bool
  | .shift a => a.runTime
  | .rch a => a.runTime
  | .ups a => a.runTime
  | .illegal60 op _ => decide (0o60 ≤ op.toNat)
  | .illegal50 op _ => decide (0o50 ≤ op.toNat ∧ op.toNat < 0o60)
  | .illegal44 op _ => decide (0o44 ≤ op.toNat ∧ op.toNat < 0o50)
  | .illegal42 op _ => decide (0o42 ≤ op.toNat ∧ op.toNat < 0o44)
  | .lcy w => kindOfAddress w == 0
  | .lsh w => kindOfAddress w == 1
  | .rsh w => kindOfAddress w == 2
  | .lrsh w => kindOfAddress w == 3
  | .rcy w => kindOfAddress w == 4
  | .shiftTrap5 w => kindOfAddress w == 5
  | .shiftTrap6 w => kindOfAddress w == 6 || kindOfAddress w == 7
  | .xca w => changeOfAddress w == 0
  | .cca w => changeOfAddress w == 1
  | .clab w => changeOfAddress w == 2
  | .cla w => changeOfAddress w == 3
  | .clb w => changeOfAddress w == 4
  | .clx w => changeOfAddress w == 5
  | .cab w => changeOfAddress w == 6
  | .cba w => changeOfAddress w == 7
  | .xab w => changeOfAddress w == 8
  | .cbx w => changeOfAddress w == 9
  | .cxb w => changeOfAddress w == 10
  | .xxb w => changeOfAddress w == 11
  | .cxa w => changeOfAddress w == 12
  | .cax w => changeOfAddress w == 13
  | .xxa w => changeOfAddress w == 14
  | .cna w => changeOfAddress w == 15
  | .str w => signalOfAddress w == 0
  | .upr w => signalOfAddress w == 1
  | .pro w => signalOfAddress w == 2
  | .upsUndefined w => signalOfAddress w == 3
  | .hlt _ => true
  | .bru _ => true
  | .etr _ => true
  | .mrg _ => true
  | .eor _ => true
  | .nop _ => true
  | .exu _ => true
  | .sta _ => true
  | .stb _ => true
  | .stx _ => true
  | .brx _ => true
  | .brm _ => true
  | .upot _ => true
  | .upin _ => true
  | .ske _ => true
  | .brr _ => true
  | .skb _ => true
  | .skn _ => true
  | .sub _ => true
  | .add _ => true
  | .skr _ => true
  | .min _ => true
  | .xma _ => true
  | .adm _ => true
  | .skm _ => true
  | .ldx _ => true
  | .ska _ => true
  | .skg _ => true
  | .ldb _ => true
  | .lda _ => true
  | .eax _ => true
  | .pop _ _ => true

end Sys2Proof
end

