-- ==== Sys2Proof/Decode.lean ====
section
/-! DEFINITION. Decoding of instruction words and of indirect address words (30_encoding.md), and the encoder. -/

namespace Sys2Proof

/-- `X(w) = w[22]` (30_encoding.md R82). -/
def fieldX (w : Word) : Bool := w.getLsbD 22

/-- `Pbit(w) = w[21]`, the pop bit (30_encoding.md R82). -/
def fieldPop (w : Word) : Bool := w.getLsbD 21

/-- `OP(w) = w[20:15]` (30_encoding.md R82). -/
def fieldOp (w : Word) : BitVec 6 := w.extractLsb' 15 6

/-- `I(w) = w[14]` (30_encoding.md R82). -/
def fieldI (w : Word) : Bool := w.getLsbD 14

/-- `W(w) = w[13:0]` (30_encoding.md R82). -/
def fieldW (w : Word) : RelAddr := w.extractLsb' 0 14

/-- The fields X, I, W of an instruction word or of a normal indirect address word (30_encoding.md R81, R84). -/
def operandOf (w : Word) : Operand := ⟨fieldX w, fieldI w, fieldW w⟩

/-- The illegal operation codes 42B to 77B, by the table's four rows (30_encoding.md R96 (c)). -/
def decodeIllegal (op : BitVec 6) (a : Operand) : Instr :=
  if 0o60 ≤ op.toNat then .illegal60 op a
  else if 0o50 ≤ op.toNat then .illegal50 op a
  else if 0o44 ≤ op.toNat then .illegal44 op a
  else .illegal42 op a

/-- SHIFT: with X = I = 0 the sub-case is readable from the word (30_encoding.md R90, R92). -/
def decodeShift (a : Operand) : Instr :=
  if a.runTime then .shift a
  else match (kindOfAddress a.w).toNat with
    | 0 => .lcy a.w
    | 1 => .lsh a.w
    | 2 => .rsh a.w
    | 3 => .lrsh a.w
    | 4 => .rcy a.w
    | 5 => .shiftTrap5 a.w
    | _ => .shiftTrap6 a.w

/-- RCH: with X = I = 0 the sub-case is readable from the word (30_encoding.md R90, R93). -/
def decodeChange (a : Operand) : Instr :=
  if a.runTime then .rch a
  else match (changeOfAddress a.w).toNat with
    | 0o0 => .xca a.w
    | 0o1 => .cca a.w
    | 0o2 => .clab a.w
    | 0o3 => .cla a.w
    | 0o4 => .clb a.w
    | 0o5 => .clx a.w
    | 0o6 => .cab a.w
    | 0o7 => .cba a.w
    | 0o10 => .xab a.w
    | 0o11 => .cbx a.w
    | 0o12 => .cxb a.w
    | 0o13 => .xxb a.w
    | 0o14 => .cxa a.w
    | 0o15 => .cax a.w
    | 0o16 => .xxa a.w
    | _ => .cna a.w

/-- UPS: with X = I = 0 the sub-case is readable from the word (30_encoding.md R90, R94). -/
def decodeSignal (a : Operand) : Instr :=
  if a.runTime then .ups a
  else match (signalOfAddress a.w).toNat with
    | 0 => .str a.w
    | 1 => .upr a.w
    | 2 => .pro a.w
    | _ => .upsUndefined a.w

/-- The instruction of operation code `op` in a word with Pbit = 0 (30_encoding.md R91, R96). -/
def decodeMachine (op : BitVec 6) (a : Operand) : Instr :=
  match op.toNat with
  | 0o00 => .hlt a
  | 0o01 => .bru a
  | 0o02 => .etr a
  | 0o03 => .mrg a
  | 0o04 => .eor a
  | 0o05 => .nop a
  | 0o06 => .exu a
  | 0o07 => .sta a
  | 0o10 => .stb a
  | 0o11 => .stx a
  | 0o12 => .brx a
  | 0o13 => .brm a
  | 0o14 => .upot a
  | 0o15 => .upin a
  | 0o16 => decodeChange a
  | 0o17 => .ske a
  | 0o20 => .brr a
  | 0o21 => .skb a
  | 0o22 => .skn a
  | 0o23 => .sub a
  | 0o24 => .add a
  | 0o25 => .skr a
  | 0o26 => .min a
  | 0o27 => .xma a
  | 0o30 => .adm a
  | 0o31 => decodeShift a
  | 0o32 => .skm a
  | 0o33 => .ldx a
  | 0o34 => .ska a
  | 0o35 => .skg a
  | 0o36 => .ldb a
  | 0o37 => .lda a
  | 0o40 => .eax a
  | 0o41 => decodeSignal a
  | _ => decodeIllegal op a

/-- The instruction a word holds. Every word holds one (30_encoding.md R96); bit 0 is ignored (R82). -/
def decodeWord (w : Word) : Instr :=
  if fieldPop w then .pop (fieldOp w) (operandOf w) else decodeMachine (fieldOp w) (operandOf w)

/-- Why bytes hold no instruction. -/
inductive DecodeError where
  /-- Fewer than the three bytes of one word are left. -/
  | truncated
  deriving DecidableEq, Repr

/-- A word from its three bytes, the least significant first (the model's own layout, log 1). -/
def wordOfBytes (b0 b1 b2 : Byte) : Word := b2 ++ b1 ++ b0

/-- Byte `k` of a word, byte 0 the least significant (log 1). -/
def byteOfWord (w : Word) (k : Nat) : Byte := w.extractLsb' (8 * k) 8

/-- Decoding of bytes: one word's instruction and the bytes after it. The only bytes that hold none are too few of them. -/
def decode : List Byte → Except DecodeError (Instr × List Byte)
  | b0 :: b1 :: b2 :: rest => .ok (decodeWord (wordOfBytes b0 b1 b2), rest)
  | _ => .error .truncated

/-- The instruction decoded from the `nbits` bits of `w`, laid out as the model's memory stores a word. -/
def decodeTableWord (nbits w : Nat) : Option Instr :=
  let v : Word := BitVec.ofNat 24 (w % 2 ^ nbits)
  match decode [byteOfWord v 0, byteOfWord v 1, byteOfWord v 2] with
  | .ok (i, _) => some i
  | .error _ => none

/-- `Encode(x, p, op, i, addr)` of 30_encoding.md R82, bit 0 written as 0. -/
def encodeFields (x p : Bool) (op : BitVec 6) (i : Bool) (addr : RelAddr) : Word :=
  0#1 ++ BitVec.ofBool x ++ BitVec.ofBool p ++ op ++ BitVec.ofBool i ++ addr

/-- A word with Pbit = 0 and the address part `a`. -/
def encodeMachine (op : BitVec 6) (a : Operand) : Word := encodeFields a.x false op a.i a.w

/-- The word of an instruction (30_encoding.md R82, R91 to R95). -/
def encodeWord : Instr → Word
  | .hlt a => encodeMachine 0o00 a
  | .bru a => encodeMachine 0o01 a
  | .etr a => encodeMachine 0o02 a
  | .mrg a => encodeMachine 0o03 a
  | .eor a => encodeMachine 0o04 a
  | .nop a => encodeMachine 0o05 a
  | .exu a => encodeMachine 0o06 a
  | .sta a => encodeMachine 0o07 a
  | .stb a => encodeMachine 0o10 a
  | .stx a => encodeMachine 0o11 a
  | .brx a => encodeMachine 0o12 a
  | .brm a => encodeMachine 0o13 a
  | .upot a => encodeMachine 0o14 a
  | .upin a => encodeMachine 0o15 a
  | .rch a => encodeMachine 0o16 a
  | .ske a => encodeMachine 0o17 a
  | .brr a => encodeMachine 0o20 a
  | .skb a => encodeMachine 0o21 a
  | .skn a => encodeMachine 0o22 a
  | .sub a => encodeMachine 0o23 a
  | .add a => encodeMachine 0o24 a
  | .skr a => encodeMachine 0o25 a
  | .min a => encodeMachine 0o26 a
  | .xma a => encodeMachine 0o27 a
  | .adm a => encodeMachine 0o30 a
  | .shift a => encodeMachine 0o31 a
  | .skm a => encodeMachine 0o32 a
  | .ldx a => encodeMachine 0o33 a
  | .ska a => encodeMachine 0o34 a
  | .skg a => encodeMachine 0o35 a
  | .ldb a => encodeMachine 0o36 a
  | .lda a => encodeMachine 0o37 a
  | .eax a => encodeMachine 0o40 a
  | .ups a => encodeMachine 0o41 a
  | .pop op a => encodeFields a.x true op a.i a.w
  | .illegal60 op a => encodeMachine op a
  | .illegal50 op a => encodeMachine op a
  | .illegal44 op a => encodeMachine op a
  | .illegal42 op a => encodeMachine op a
  | .lcy w => encodeMachine 0o31 (.direct w)
  | .lsh w => encodeMachine 0o31 (.direct w)
  | .rsh w => encodeMachine 0o31 (.direct w)
  | .lrsh w => encodeMachine 0o31 (.direct w)
  | .rcy w => encodeMachine 0o31 (.direct w)
  | .shiftTrap5 w => encodeMachine 0o31 (.direct w)
  | .shiftTrap6 w => encodeMachine 0o31 (.direct w)
  | .xca w => encodeMachine 0o16 (.direct w)
  | .cca w => encodeMachine 0o16 (.direct w)
  | .clab w => encodeMachine 0o16 (.direct w)
  | .cla w => encodeMachine 0o16 (.direct w)
  | .clb w => encodeMachine 0o16 (.direct w)
  | .clx w => encodeMachine 0o16 (.direct w)
  | .cab w => encodeMachine 0o16 (.direct w)
  | .cba w => encodeMachine 0o16 (.direct w)
  | .xab w => encodeMachine 0o16 (.direct w)
  | .cbx w => encodeMachine 0o16 (.direct w)
  | .cxb w => encodeMachine 0o16 (.direct w)
  | .xxb w => encodeMachine 0o16 (.direct w)
  | .cxa w => encodeMachine 0o16 (.direct w)
  | .cax w => encodeMachine 0o16 (.direct w)
  | .xxa w => encodeMachine 0o16 (.direct w)
  | .cna w => encodeMachine 0o16 (.direct w)
  | .str w => encodeMachine 0o41 (.direct w)
  | .upr w => encodeMachine 0o41 (.direct w)
  | .pro w => encodeMachine 0o41 (.direct w)
  | .upsUndefined w => encodeMachine 0o41 (.direct w)

/-- The bytes of an instruction, as `decode` reads them. -/
def encode (i : Instr) : List Byte :=
  [byteOfWord (encodeWord i) 0, byteOfWord (encodeWord i) 1, byteOfWord (encodeWord i) 2]

end Sys2Proof
end

