-- ==== Sys2Proof/Config.lean ====
section
/-! DEFINITION. What the spec leaves open: the open parameters of 00_scope.md R7, and the free value that UPIN draws. -/

namespace Sys2Proof

/-- The two candidate values of `POP_MARK` (49_pops.md R221; 92_eei_decisions.md D9). -/
inductive PopMark where
  /-- 4000B, the constant the source prints. -/
  | printed
  /-- 40000B, the I position, suspected to be intended. -/
  | indirect
  deriving DecidableEq, Repr

/-- The 24-bit constant a pop ORs into P (49_pops.md R221). -/
def PopMark.value : PopMark → Word
  | .printed => 0o4000#24
  | .indirect => 0o40000#24

/-- The open parameters of 00_scope.md R7. They are plain data carried by State and changed by no step, so that a statement
over every state holds for every value of them (DESIGN CHOICE, log 4). -/
structure Params where
  /-- `LW_WIDTH - 14`: the constraint 14 <= LW_WIDTH <= 22 holds by its type (30_encoding.md R85). -/
  lwExtra : Fin 9
  /-- `POP_MARK`. -/
  popMark : PopMark
  /-- `REL_SRC`, the absolute location from which a trap reloads REL. -/
  relSrc : Nat
  /-- `BOUND_SRC`, the absolute location from which a trap reloads BOUND. -/
  boundSrc : Nat
  /-- `MEM_WORDS`, the number of words of M1 central memory. -/
  memWords : Nat
  deriving DecidableEq, Repr

/-- `LW_WIDTH`. -/
def Params.lwWidth (p : Params) : Nat := 14 + p.lwExtra.val

/-- The constraints 00_scope.md R7 puts on the open parameters. -/
abbrev Params.valid (p : Params) : Prop :=
  1 ≤ p.memWords ∧ p.memWords ≤ 2 ^ p.lwWidth ∧ p.relSrc < p.memWords ∧ p.boundSrc < p.memWords ∧ p.boundSrc ≠ p.relSrc

/-- The value the outside world supplies to the `draw`-th UPIN, addressed to `device`: `Draw(Input(device))` of
48_io_and_ups.md R211, under no law. A free value: it has no body (log 5). -/
opaque Config.deviceInput (draw : Nat) (device : Word) : Word

end Sys2Proof
end

