-- ==== Sys2Proof/Machine/State.lean ====
section
/-! DEFINITION. The state of the ITP as plain data, the reasons a step can stop, and the state after reset. -/

namespace Sys2Proof.Machine

/-- The causes of a trap: labels of the model, the hardware records none (60_exceptions.md R231). -/
inductive Cause where
  /-- Pbit = 0 and OP in 42B to 77B. -/
  | illegalInstruction
  /-- SHIFT with kind 5, 6 or 7. -/
  | illegalShift
  /-- HLT. -/
  | halt
  /-- A relative store at Q with not Q < BOUND. -/
  | storeProtect
  /-- The ITP is started from outside. -/
  | start
  deriving DecidableEq, Repr

/-- What the ITP emits toward the world outside it: the `Emit` of 00_scope.md R11. -/
inductive Event where
  /-- UPOT (48_io_and_ups.md R210). -/
  | output (device data : Word)
  /-- UPIN (48_io_and_ups.md R211). -/
  | input (device data : Word)
  /-- STR (48_io_and_ups.md R213). -/
  | strobe (select : BitVec 8)
  /-- PRO (48_io_and_ups.md R215). -/
  | protect (set : BitVec 8)
  /-- UPR (48_io_and_ups.md R216). -/
  | unprotect
  /-- A trap sequence (60_exceptions.md R236; 70_reset_and_hazards.md R264). -/
  | trap (cause : Cause)
  deriving DecidableEq, Repr

/-- A move of the world outside the ITP, made between two instructions (70_reset_and_hazards.md R268). -/
inductive Arrival where
  /-- "instruction to the µS": the ITP is started (60_exceptions.md R233). -/
  | start
  /-- Another agent writes a word of M1 central memory (20_memory.md R63 (d)). -/
  | write (loc : Nat) (v : Word)
  /-- Another agent changes schedule mode (10_state.md R31). -/
  | schedule (on : Bool)
  /-- Another agent changes the protects (10_state.md R31). -/
  | protects (set : BitVec 8)
  deriving DecidableEq, Repr

/-- M1 central memory as (address, byte) pairs: word `n` lies in the bytes `3n`, `3n + 1`, `3n + 2` (log 1). -/
abbrev Memory := List Host.Cell

/-- What an address that memory does not list reads as. The spec gives memory no initial contents (10_state.md R36): DESIGN
CHOICE, unsafe (log 2). -/
def unlistedByte : Byte := 0

/-- The canonical form of memory: addresses strictly rising, and no entry equal to what an unlisted address reads as. -/
abbrev Memory.wf (m : Memory) : Prop :=
  m.Pairwise (fun c d => c.1 < d.1) ∧ ∀ c ∈ m, c.2 ≠ unlistedByte

/-- The state of the machine: the spec's registers, memory and M1 state (10_state.md), then the model's own fields. -/
structure State where
  /-- Central register A (R20). -/
  ar : Word
  /-- Central register B (R20). -/
  br : Word
  /-- Central register X (R20). -/
  xr : Word
  /-- Program counter, a relative address (R23). -/
  p : RelAddr
  /-- Memory relocation register, control register 1 (R28). -/
  rel : Word
  /-- Memory bound register, control register 3 (R29). -/
  bound : Word
  /-- I/O control register, control register 2 (R30). -/
  ioctl : Word
  /-- Mode register, control register 0 (R31). -/
  mode : Word
  /-- M1 central memory (R33). -/
  mem : Memory
  /-- `SCHED`: the microscheduler is in schedule mode (R31). -/
  sched : Bool
  /-- `PROT`: the protects now set (R31). -/
  prot : BitVec 8
  /-- The open parameters; no step changes them (log 4). -/
  params : Params
  /-- How many values UPIN has drawn (log 5). -/
  draws : Nat
  /-- What the outside world does from here on, the nearest first: `some m` is the move `m`, made before the next instruction,
  `none` lets one instruction run; at the end of the list it makes no further move (60_exceptions.md R233, R245;
  10_state.md R31; log 7). -/
  arrivals : List (Option Arrival)
  /-- What has been emitted, the newest first (log 6). -/
  events : List Event
  /-- An instruction that never completes is in progress (log 8). -/
  hung : Bool
  deriving DecidableEq, Repr

/-- Why a step has no next state. -/
inductive Fault where
  /-- A reference to a physical location at or beyond MEM_WORDS, which does not exist (20_memory.md R57). Raised by every
  memory access. Safe: the spec gives such a reference no step (log 9). -/
  | absentLocation (loc : Nat)
  deriving DecidableEq, Repr

/-- Why an instruction is refused. -/
inductive Refusal where
  /-- UPS with sub-case 3, "Undefined" (48_io_and_ups.md R214). Raised by UPS and its sub-case row. Safe (log 10). -/
  | undefinedSignal
  /-- An instruction that has no meaning in this model. Raised by no arm: every instruction has one. Safe. -/
  | notModelled (mnemonic : String)
  deriving DecidableEq, Repr

/-- An outcome of this machine. -/
abbrev Result := Host.Outcome State Fault Refusal

/-- The values this model gives the open parameters at reset (log 4). -/
def Params.atReset : Params :=
  { lwExtra := 8, popMark := .printed, relSrc := 0o20, boundSrc := 0o21, memWords := 2 ^ 22 }

/-- Before the first Start, where the spec leaves every value free (10_state.md R36): the values this model names
(DESIGN CHOICE, unsafe, log 2 and log 3). That the outside world makes no move after it, `arrivals := []`, is this model's choice
too: the spec leaves open whether and when one comes (70_reset_and_hazards.md R268; DESIGN CHOICE, unsafe, log 7). -/
def State.powerOn : State :=
  { ar := 0, br := 0, xr := 0, p := 0, rel := 0, bound := 0, ioctl := 0, mode := 0, mem := [], sched := false, prot := 0,
    params := Params.atReset, draws := 0, arrivals := [], events := [], hung := false }

/-- A launch: right after reset, which is the trap sequence with cause Start (70_reset_and_hazards.md R260, R261; 10_state.md R35), from
`State.powerOn`: P = 3, IOCTL = 0, REL and BOUND the words at their source locations, the old P at relative location 2, each
of which is a word of zeros in memory with nothing listed. `world` is what the outside world does from then on. The statement
ResetIsTheStartSequence says that it is that sequence. -/
def State.launched (world : List (Option Arrival)) : State :=
  { ar := 0, br := 0, xr := 0, p := 3, rel := 0, bound := 0, ioctl := 0, mode := 0, mem := [], sched := false, prot := 0,
    params := Params.atReset, draws := 0, arrivals := world, events := [.trap .start], hung := false }

/-- Right after reset. The spec leaves open whether and when the outside world moves (70_reset_and_hazards.md R268): that it makes
no move in a run from here, `arrivals := []`, is this model's choice (DESIGN CHOICE, unsafe, log 7). A run in which it moves begins
at `State.launched` with those moves. -/
def State.reset : State := State.launched []

end Sys2Proof.Machine
end

