-- ==== Sys2Proof/Machine/Memory.lean ====
section
/-! DEFINITION. Reading and writing M1 central memory: one byte, and one 24-bit word of three bytes (20_memory.md R50, R58). -/

namespace Sys2Proof.Machine

/-- The byte at an address: the listed one, else `unlistedByte`. -/
def readByte : Memory → Nat → Byte
  | [], _ => unlistedByte
  | (k, c) :: m, a => if k = a then c else readByte m a

/-- Memory with one byte replaced, the canonical form kept: writing what an unlisted address reads as lists nothing. -/
def writeByte : Memory → Nat → Byte → Memory
  | [], a, b => if b = unlistedByte then [] else [(a, b)]
  | (k, c) :: m, a, b =>
    if k < a then (k, c) :: writeByte m a b
    else if k = a then (if b = unlistedByte then m else (a, b) :: m)
    else if b = unlistedByte then (k, c) :: m else (a, b) :: (k, c) :: m

/-- The word at a location: three bytes, the least significant at the lowest address (log 1). -/
def readWord (m : Memory) (loc : Nat) : Word :=
  wordOfBytes (readByte m (3 * loc)) (readByte m (3 * loc + 1)) (readByte m (3 * loc + 2))

/-- Memory with one word replaced. -/
def writeWord (m : Memory) (loc : Nat) (v : Word) : Memory :=
  writeByte (writeByte (writeByte m (3 * loc) (byteOfWord v 0)) (3 * loc + 1) (byteOfWord v 1)) (3 * loc + 2) (byteOfWord v 2)

end Sys2Proof.Machine
end

