-- ==== Sys2Proof/Machine/Ops.lean ====
section
/-! DEFINITION. The operations every instruction is built from: memory references with relocation and protection
(20_memory.md), the end of an instruction (40_execution_cycle.md R117), and taking a trap (60_exceptions.md R236). The ITP has
no return-from-trap instruction (R239). -/

namespace Sys2Proof.Machine

/-- `zext_24(v)` of a relative address (00_scope.md R10). -/
def zext24 (a : RelAddr) : Word := a.setWidth 24

/-- `low14(v) = v[13:0]` (00_scope.md R10). -/
def low14 (v : Word) : RelAddr := v.setWidth 14

/-- How far an instruction comes before its end. -/
inductive Stage (α : Type) where
  /-- It has this intermediate result. -/
  | done (value : α)
  /-- It raises a trap, which abandons it (00_scope.md R11). -/
  | trap (cause : Cause)
  /-- It never completes (30_encoding.md R88 (d)). -/
  | endless
  /-- It references a location that does not exist (20_memory.md R57). -/
  | fault (reason : Fault)
  /-- The spec gives it no effect (48_io_and_ups.md R214). -/
  | refused (reason : Refusal)
  deriving DecidableEq, Repr

/-- One stage after another. -/
def Stage.bind {α β : Type} (r : Stage α) (f : α → Stage β) : Stage β :=
  match r with
  | .done v => f v
  | .trap c => .trap c
  | .endless => .endless
  | .fault e => .fault e
  | .refused e => .refused e

/-- A memory access as a stage: it yields a value or faults. -/
def Stage.ofAccess {α : Type} (r : Except Fault α) : Stage α :=
  match r with
  | .ok v => .done v
  | .error e => .fault e

/-- `MemRead(pa, 1)`: a location that does not exist has no meaning (00_scope.md R11; 20_memory.md R57). -/
def memRead (s : State) (loc : Nat) : Except Fault Word :=
  if loc < s.params.memWords then .ok (readWord s.mem loc) else .error (.absentLocation loc)

/-- `MemWrite(pa, 1, v)` (00_scope.md R11; 20_memory.md R57). -/
def memWrite (s : State) (loc : Nat) (v : Word) : Except Fault State :=
  if loc < s.params.memWords then .ok { s with mem := writeWord s.mem loc v } else .error (.absentLocation loc)

/-- `IsAbs(q)`: the sign bit tells an absolute address from a relative one (20_memory.md R51). -/
def isAbs (q : Word) : Bool := q.getLsbD 23

/-- `AbsLoc(q) = q[22:0]` (20_memory.md R51). -/
def absLoc (q : Word) : Nat := (q.extractLsb' 0 23).toNat

/-- `Phys(q) = (q + REL) mod 2^24` (20_memory.md R53). -/
def physical (s : State) (q : Word) : Nat := (q + s.rel).toNat

/-- The location an effective address names: relocated if relative, as it stands if absolute (20_memory.md R53, R56). -/
def location (s : State) (q : Word) : Nat := if isAbs q then absLoc q else physical s q

/-- `Contents(q)`, the source's CONTENTS (20_memory.md R54). -/
def contents (s : State) (q : Word) : Except Fault Word := memRead s (location s q)

/-- A store at `q` is allowed: absolute, or relative and `q < BOUND`, unsigned (20_memory.md R55; decision D7). -/
def storeAllowed (s : State) (q : Word) : Bool := isAbs q || decide (q < s.bound)

/-- `Store(q, v)`, the source's STORE (20_memory.md R55): nothing is written where the check fails. -/
def store (s : State) (q v : Word) : Stage State :=
  if storeAllowed s q then .ofAccess (memWrite s (location s q) v) else .trap .storeProtect

/-- `Emit(e)` (00_scope.md R11). -/
def State.emit (s : State) (e : Event) : State := { s with events := e :: s.events }

/-- The trap and reset sequence, in the order of its actions (60_exceptions.md R236): REL and BOUND from their source
locations, IOCTL cleared, the un-advanced P stored at relative 2 under the new REL without a bound check, P set to 3. -/
def trapSequence (cause : Cause) (s : State) : Except Fault State :=
  match memRead s s.params.relSrc with
  | .error e => .error e
  | .ok newRel =>
    match memRead s s.params.boundSrc with
    | .error e => .error e
    | .ok newBound =>
      let loaded : State := { s with rel := newRel, bound := newBound, ioctl := 0 }
      match memWrite loaded (physical loaded 2) (zext24 s.p) with
      | .error e => .error e
      | .ok saved => .ok ({ saved with p := 3 }.emit (.trap cause))

/-- Taking a trap, for every cause (60_exceptions.md R230, R236). -/
def takeTrap (cause : Cause) (s : State) : Result :=
  match trapSequence cause s with
  | .ok t => .next t
  | .error e => .fault e

/-- How an instruction that does not trap leaves P (40_execution_cycle.md R117 (b), (c), (d)). -/
inductive Ending where
  /-- `P <- P + 1`. -/
  | step
  /-- It executed Skip: `P <- P + 2` (R116). -/
  | skip
  /-- It assigned P. -/
  | branch (target : RelAddr)
  deriving DecidableEq, Repr

/-- `Skip` where the condition holds (40_execution_cycle.md R116). -/
def skipIf (condition : Bool) : Ending := if condition then .skip else .step

/-- The P an ending leaves, modulo 2^14 (40_execution_cycle.md R117; 10_state.md R23). -/
def Ending.pc (p : RelAddr) : Ending → RelAddr
  | .step => p + 1
  | .skip => p + 2
  | .branch t => t

/-- The end of an instruction that completes without a trap (40_execution_cycle.md R117). -/
def State.endWith (s : State) (e : Ending) : State := { s with p := e.pc s.p }

/-- An instruction that never completes: nothing is changed and nothing is ever executed again (30_encoding.md R88 (d);
70_reset_and_hazards.md R266; log 8). -/
def State.hang (s : State) : State := { s with hung := true }

/-- The end of every instruction that began at `s` (40_execution_cycle.md R117). A trap is taken from `s` itself: no register
and no memory word has been changed when one is raised (R118). -/
def complete (s : State) (r : Stage (State × Ending)) : Result :=
  match r with
  | .done (t, e) => .next (t.endWith e)
  | .trap c => takeTrap c s
  | .endless => .next s.hang
  | .fault e => .fault e
  | .refused e => .refused e

/-- The fetch at P, a relative read (40_execution_cycle.md R110). -/
def fetch (s : State) : Except Fault Word := contents s (zext24 s.p)

/-- What the outside world does before the next instruction, if anything (60_exceptions.md R233; 70_reset_and_hazards.md R268). -/
def State.nextMove (s : State) : Option Arrival :=
  match s.arrivals with
  | some m :: _ => some m
  | _ => none

/-- The outside world has made its move before the next instruction, or has let that instruction run (log 7). -/
def State.pastMove (s : State) : State := { s with arrivals := s.arrivals.tail }

/-- The outside world lets one more instruction run first, and then does what it would have done. -/
def quietFirst (world : List (Option Arrival)) : List (Option Arrival) :=
  match world with
  | [] => []
  | m :: rest => none :: m :: rest

/-- A move of the outside world, between two instructions (70_reset_and_hazards.md R268). -/
def takeArrival (m : Arrival) (s : State) : Result :=
  match m with
  | .start => takeTrap .start s
  | .write loc v =>
    match memWrite s loc v with
    | .ok t => .next t
    | .error e => .fault e
  | .schedule on => .next { s with sched := on }
  | .protects set => .next { s with prot := set }

end Sys2Proof.Machine
end

