-- ==== Sys2Proof/Machine/Operands.lean ====
section
/-! DEFINITION. The effective address and the operand word (30_encoding.md R87, R89), the fields SHIFT, RCH and UPS cut out of
Q (R90), and the control registers (10_state.md R27). -/

namespace Sys2Proof.Machine

/-- The address of one pass of the loop, `W(T)`, indexed modulo 2^14 if `X(T)` (30_encoding.md R87, R88 (a), (b)). -/
def passAddress (s : State) (a : Operand) : Word :=
  if a.x then zext24 (low14 (zext24 a.w + s.xr)) else zext24 a.w

/-- `LW(v) = v[LW_WIDTH-1:0]`, zero-extended (30_encoding.md R85, R87). -/
def longAddress (p : Params) (v : Word) : Word := BitVec.ofNat 24 (v.toNat % 2 ^ p.lwWidth)

/-- The absolute result of an absolute indirect address word `t` (30_encoding.md R87, R88 (c)); 4B7 is 40000000B. -/
def absoluteAddress (s : State) (t : Word) : Word :=
  longAddress s.params (if fieldX t then t + s.xr else t) + 0o40000000#24

/-- The addressing loop, with a bound on its passes (30_encoding.md R86, R87). -/
def addressLoop : Nat → State → Operand → Stage Word
  | 0, _, _ => .endless
  | n + 1, s, a =>
    if a.i then
      (Stage.ofAccess (contents s (passAddress s a))).bind fun t =>
        if t.getLsbD 23 then .done (absoluteAddress s t) else addressLoop n s (operandOf t)
    else .done (passAddress s a)

/-- A bound no chain that ends can reach: a chain that reads more than 2^14 indirect words reads one of the 2^14 relative
addresses twice, and so never ends (30_encoding.md R88 (d); log 8). -/
def addressPasses : Nat := 2 ^ 14 + 1

/-- `EA(w)` of an instruction word with the address part `a` (30_encoding.md R87). -/
def ea (s : State) (a : Operand) : Stage Word := addressLoop addressPasses s a

/-- `D = Contents(Q)` (40_execution_cycle.md R114). -/
def operandWord (s : State) (a : Operand) : Stage Word :=
  (ea s a).bind fun q => .ofAccess (contents s q)

/-- The kind of SHIFT, `Q[10:8]` (30_encoding.md R90). -/
def shiftKind (q : Word) : BitVec 3 := q.extractLsb' 8 3

/-- The count of SHIFT, `Q[5:0]` (30_encoding.md R90). -/
def shiftCount (q : Word) : Nat := (q.extractLsb' 0 6).toNat

/-- The sub-case of RCH, `Q[11:8]` (30_encoding.md R90). -/
def changeField (q : Word) : BitVec 4 := q.extractLsb' 8 4

/-- The control register number of XCA and CCA, `Q[1:0]` (30_encoding.md R90). -/
def controlField (q : Word) : BitVec 2 := q.extractLsb' 0 2

/-- The sub-case of UPS, `Q[9:8]` (30_encoding.md R90). -/
def signalField (q : Word) : BitVec 2 := q.extractLsb' 8 2

/-- The parameter of UPS, `Q[7:0]` (30_encoding.md R90). -/
def signalParameter (q : Word) : BitVec 8 := q.extractLsb' 0 8

/-- `CR[n]`: 0 MODE, 1 REL, 2 IOCTL, 3 BOUND (10_state.md R27). -/
def State.control (s : State) (n : BitVec 2) : Word :=
  match n.toNat with
  | 0 => s.mode
  | 1 => s.rel
  | 2 => s.ioctl
  | _ => s.bound

/-- `CR[n] <- v` (10_state.md R27). -/
def State.setControl (s : State) (n : BitVec 2) (v : Word) : State :=
  match n.toNat with
  | 0 => { s with mode := v }
  | 1 => { s with rel := v }
  | 2 => { s with ioctl := v }
  | _ => { s with bound := v }

end Sys2Proof.Machine
end

