-- ==== Sys2Proof/Machine/Frame.lean ====
section
/-! DEFINITION. The shapes of instruction every family shares: what is done once Q is known, once D is read, and the one
store of an instruction that stores (40_execution_cycle.md R111 to R118). -/

namespace Sys2Proof.Machine

/-- An instruction that computes Q first and then does `body` (40_execution_cycle.md R111, R112). -/
def withAddress (s : State) (a : Operand) (body : Word → Stage (State × Ending)) : Result :=
  complete s ((ea s a).bind body)

/-- An instruction whose formula names D: one read of Q, then `body` (40_execution_cycle.md R114). -/
def withOperand (s : State) (a : Operand) (body : Word → State × Ending) : Result :=
  complete s ((operandWord s a).bind fun d => .done (body d))

/-- An instruction that stores `v` at Q and reads nothing there (40_execution_cycle.md R115). -/
def storing (s : State) (a : Operand) (v : Word) : Result :=
  withAddress s a fun q => (store s q v).bind fun t => .done (t, .step)

/-- An instruction that reads D, stores `f D` at Q, then does `after` with the state and D (20_memory.md R60, R65). -/
def updating (s : State) (a : Operand) (f : Word → Word) (after : State → Word → State × Ending) : Result :=
  withAddress s a fun q =>
    (Stage.ofAccess (contents s q)).bind fun d => (store s q (f d)).bind fun t => .done (after t d)

end Sys2Proof.Machine
end

