-- ==== Sys2Proof/Machine/Arithmetic.lean ====
section
/-! DEFINITION. Arithmetic and logical: ADD, SUB, MIN, ADM, ETR, MRG, EOR (42_arithmetic_logical.md); every sum and difference is modulo 2^24 (R147). -/

namespace Sys2Proof.Machine

/-- ADD: `AR <- AR + D` (R140). -/
def execAdd (a : Operand) (s : State) : Result :=
  withOperand s a fun d => ({ s with ar := s.ar + d }, .step)

/-- SUB: `AR <- AR - D` (R141). -/
def execSub (a : Operand) (s : State) : Result :=
  withOperand s a fun d => ({ s with ar := s.ar - d }, .step)

/-- MIN: `STORE(D + 1)` (R142). -/
def execMin (a : Operand) (s : State) : Result :=
  updating s a (fun d => d + 1) fun t _ => (t, .step)

/-- ADM: `STORE(D + AR)` (R143). -/
def execAdm (a : Operand) (s : State) : Result :=
  updating s a (fun d => d + s.ar) fun t _ => (t, .step)

/-- ETR: `AR <- AR AND D` (R144). -/
def execEtr (a : Operand) (s : State) : Result :=
  withOperand s a fun d => ({ s with ar := s.ar &&& d }, .step)

/-- MRG: `AR <- AR OR D` (R145). -/
def execMrg (a : Operand) (s : State) : Result :=
  withOperand s a fun d => ({ s with ar := s.ar ||| d }, .step)

/-- EOR: `AR <- AR EOR D` (R146). -/
def execEor (a : Operand) (s : State) : Result :=
  withOperand s a fun d => ({ s with ar := s.ar ^^^ d }, .step)

end Sys2Proof.Machine
end

