-- ==== Sys2Proof/Machine/Flags.lean ====
section
/-! DEFINITION. The ITP has no flag, condition code, carry or overflow (10_state.md R25): the conditions that the skip
instructions and BRX test directly on values (43_skip.md R157; 44_branch.md R161). -/

namespace Sys2Proof.Machine

/-- `v < 0`: the sign bit `v{0}` (00_scope.md R10). -/
def isNegative (v : Word) : Bool := v.getLsbD 23

/-- `a > b` in SKG: the signed comparison (43_skip.md R157; decision D14). -/
def signedGreater (a b : Word) : Bool := decide (b.toInt < a.toInt)

/-- `a AND b = 0`: no one bit in common (43_skip.md R157). -/
def noCommonOnes (a b : Word) : Bool := a &&& b == 0

/-- `a AND m = b AND m`: equal under the mask `m` (43_skip.md R151). -/
def equalUnder (m a b : Word) : Bool := a &&& m == b &&& m

/-- `x AND 40000B ≠ 0`: the bit BRX tests, `x{9}` (44_branch.md R161). -/
def indexBit (x : Word) : Bool := x &&& 0o40000#24 != 0

end Sys2Proof.Machine
end

