-- ==== Sys2Proof/Machine/Branch.lean ====
section
/-! DEFINITION. Branch: BRU, BRX, BRM, BRR (44_branch.md). Only the low 14 bits of a target are kept (R162 (b)). -/

namespace Sys2Proof.Machine

/-- BRU: `P <- Q` (R160). -/
def execBru (a : Operand) (s : State) : Result :=
  withAddress s a fun q => .done (s, .branch (low14 q))

/-- BRX: `XR <- XR + 1; P <- Q IF XR AND 40000B ≠ 0`, the incremented XR tested, Q formed with the old one (R161). -/
def execBrx (a : Operand) (s : State) : Result :=
  withAddress s a fun q =>
    .done ({ s with xr := s.xr + 1 }, if indexBit (s.xr + 1) then .branch (low14 q) else .step)

/-- BRM: `STORE(P); P <- Q + 1` (R163). -/
def execBrm (a : Operand) (s : State) : Result :=
  withAddress s a fun q =>
    (store s q (zext24 s.p)).bind fun t => .done (t, .branch (low14 (q + 1)))

/-- BRR: `P <- D + 1` (R164). -/
def execBrr (a : Operand) (s : State) : Result :=
  withOperand s a fun d => (s, .branch (low14 (d + 1)))

end Sys2Proof.Machine
end

