-- ==== Sys2Proof/Machine/DataTransfer.lean ====
section
/-! DEFINITION. Data transfer: LDA, LDB, LDX, STA, STB, STX, XMA (41_data_transfer.md). -/

namespace Sys2Proof.Machine

/-- LDA: `AR <- D` (R130). -/
def execLda (a : Operand) (s : State) : Result :=
  withOperand s a fun d => ({ s with ar := d }, .step)

/-- LDB: `BR <- D` (R131). -/
def execLdb (a : Operand) (s : State) : Result :=
  withOperand s a fun d => ({ s with br := d }, .step)

/-- LDX: `XR <- D` (R132). -/
def execLdx (a : Operand) (s : State) : Result :=
  withOperand s a fun d => ({ s with xr := d }, .step)

/-- STA: `STORE(AR)` (R133). -/
def execSta (a : Operand) (s : State) : Result :=
  storing s a s.ar

/-- STB: `STORE(BR)` (R134). -/
def execStb (a : Operand) (s : State) : Result :=
  storing s a s.br

/-- STX: `STORE(XR)` (R135). -/
def execStx (a : Operand) (s : State) : Result :=
  storing s a s.xr

/-- XMA: `T <- D; STORE(AR); AR <- T` (R136). -/
def execXma (a : Operand) (s : State) : Result :=
  updating s a (fun _ => s.ar) fun t d => ({ t with ar := d }, .step)

end Sys2Proof.Machine
end

