-- ==== Sys2Proof/Machine/Misc.lean ====
section
/-! DEFINITION. NOP, EAX, HLT (47_miscellaneous.md) and the illegal operation codes (30_encoding.md R96). EXU is in Execute.lean. -/

namespace Sys2Proof.Machine

/-- NOP: no action; Q is still computed (R200). -/
def execNop (a : Operand) (s : State) : Result :=
  withAddress s a fun _ => .done (s, .step)

/-- EAX: `XR <- (Q AND 37777B) OR (XR AND 7774B4)` (R202). -/
def execEax (a : Operand) (s : State) : Result :=
  withAddress s a fun q =>
    .done ({ s with xr := (q &&& 0o37777#24) ||| (s.xr &&& 0o77740000#24) }, .step)

/-- HLT: trap, after Q is computed (R203). -/
def execHlt (a : Operand) (s : State) : Result :=
  withAddress s a fun _ => .trap .halt

/-- Operation codes 60B to 77B: trap, after Q is computed (30_encoding.md R96 (c); 40_execution_cycle.md R111). -/
def execIllegal60 (_op : BitVec 6) (a : Operand) (s : State) : Result :=
  withAddress s a fun _ => .trap .illegalInstruction

/-- Operation codes 50B to 57B: trap, after Q is computed (30_encoding.md R96 (c); 40_execution_cycle.md R111). -/
def execIllegal50 (_op : BitVec 6) (a : Operand) (s : State) : Result :=
  withAddress s a fun _ => .trap .illegalInstruction

/-- Operation codes 44B to 47B: trap, after Q is computed (30_encoding.md R96 (c); 40_execution_cycle.md R111). -/
def execIllegal44 (_op : BitVec 6) (a : Operand) (s : State) : Result :=
  withAddress s a fun _ => .trap .illegalInstruction

/-- Operation codes 42B and 43B: trap, after Q is computed (30_encoding.md R96 (c); 40_execution_cycle.md R111). -/
def execIllegal42 (_op : BitVec 6) (a : Operand) (s : State) : Result :=
  withAddress s a fun _ => .trap .illegalInstruction

end Sys2Proof.Machine
end

