-- ==== Sys2Proof/Machine/Pop.lean ====
section
/-! DEFINITION. Pops (49_pops.md). -/

namespace Sys2Proof.Machine

/-- Pop: `STORE(P OR POP_MARK, 0); P <- 100B + OP` (R220). No effective address is computed and X, I, W are not used (R95;
40_execution_cycle.md R112). -/
def execPop (op : BitVec 6) (_a : Operand) (s : State) : Result :=
  complete s ((store s 0 (zext24 s.p ||| s.params.popMark.value)).bind fun t =>
    .done (t, .branch (0o100#14 + op.setWidth 14)))

end Sys2Proof.Machine
end

