-- ==== Sys2Proof/Machine/RegisterChange.lean ====
section
/-! DEFINITION. RCH and its sixteen sub-cases (46_register_change.md). -/

namespace Sys2Proof.Machine

/-- XCA: `T <- AR; AR <- CR; CR <- T` (R181). -/
def exchangeControl (q : Word) (s : State) : State :=
  ({ s with ar := s.control (controlField q) }).setControl (controlField q) s.ar

/-- CCA: `AR <- CR` (R182). -/
def copyControl (q : Word) (s : State) : State :=
  { s with ar := s.control (controlField q) }

/-- CLAB: `AR <- BR <- 0` (R183). -/
def clearAB (s : State) : State :=
  { s with ar := 0, br := 0 }

/-- CLA: `AR <- 0` (R184). -/
def clearA (s : State) : State :=
  { s with ar := 0 }

/-- CLB: `BR <- 0` (R185). -/
def clearB (s : State) : State :=
  { s with br := 0 }

/-- CLX: `XR <- 0` (R186). -/
def clearX (s : State) : State :=
  { s with xr := 0 }

/-- CAB: `BR <- AR` (R187). -/
def copyAB (s : State) : State :=
  { s with br := s.ar }

/-- CBA: `AR <- BR` (R188). -/
def copyBA (s : State) : State :=
  { s with ar := s.br }

/-- XAB: `T <- AR; AR <- BR; BR <- T` (R189). -/
def exchangeAB (s : State) : State :=
  { s with ar := s.br, br := s.ar }

/-- CBX: `XR <- BR` (R190). -/
def copyBX (s : State) : State :=
  { s with xr := s.br }

/-- CXB: `BR <- XR` (R191). -/
def copyXB (s : State) : State :=
  { s with br := s.xr }

/-- XXB: `T <- XR; XR <- BR; BR <- T` (R192). -/
def exchangeXB (s : State) : State :=
  { s with xr := s.br, br := s.xr }

/-- CXA: `AR <- XR` (R193). -/
def copyXA (s : State) : State :=
  { s with ar := s.xr }

/-- CAX: `XR <- AR` (R194). -/
def copyAX (s : State) : State :=
  { s with xr := s.ar }

/-- XXA: `T <- XR; XR <- AR; AR <- T` (R195). -/
def exchangeXA (s : State) : State :=
  { s with xr := s.ar, ar := s.xr }

/-- CNA: `AR <- -AR` (R196). -/
def negateA (s : State) : State :=
  { s with ar := -s.ar }

/-- The sub-case that Q names (R180; 30_encoding.md R93). -/
def change (q : Word) (s : State) : State :=
  match (changeField q).toNat with
  | 0o0 => exchangeControl q s
  | 0o1 => copyControl q s
  | 0o2 => clearAB s
  | 0o3 => clearA s
  | 0o4 => clearB s
  | 0o5 => clearX s
  | 0o6 => copyAB s
  | 0o7 => copyBA s
  | 0o10 => exchangeAB s
  | 0o11 => copyBX s
  | 0o12 => copyXB s
  | 0o13 => exchangeXB s
  | 0o14 => copyXA s
  | 0o15 => copyAX s
  | 0o16 => exchangeXA s
  | _ => negateA s

/-- RCH: the sub-case and the control register number come from Q (R180). -/
def execRch (a : Operand) (s : State) : Result :=
  withAddress s a fun q => .done (change q s, .step)

/-- XCA, Q = W (R181). -/
def execXca (w : RelAddr) (s : State) : Result :=
  withAddress s (.direct w) fun q => .done (exchangeControl q s, .step)

/-- CCA, Q = W (R182). -/
def execCca (w : RelAddr) (s : State) : Result :=
  withAddress s (.direct w) fun q => .done (copyControl q s, .step)

/-- CLAB, Q = W (R183). -/
def execClab (w : RelAddr) (s : State) : Result :=
  withAddress s (.direct w) fun _ => .done (clearAB s, .step)

/-- CLA, Q = W (R184). -/
def execCla (w : RelAddr) (s : State) : Result :=
  withAddress s (.direct w) fun _ => .done (clearA s, .step)

/-- CLB, Q = W (R185). -/
def execClb (w : RelAddr) (s : State) : Result :=
  withAddress s (.direct w) fun _ => .done (clearB s, .step)

/-- CLX, Q = W (R186). -/
def execClx (w : RelAddr) (s : State) : Result :=
  withAddress s (.direct w) fun _ => .done (clearX s, .step)

/-- CAB, Q = W (R187). -/
def execCab (w : RelAddr) (s : State) : Result :=
  withAddress s (.direct w) fun _ => .done (copyAB s, .step)

/-- CBA, Q = W (R188). -/
def execCba (w : RelAddr) (s : State) : Result :=
  withAddress s (.direct w) fun _ => .done (copyBA s, .step)

/-- XAB, Q = W (R189). -/
def execXab (w : RelAddr) (s : State) : Result :=
  withAddress s (.direct w) fun _ => .done (exchangeAB s, .step)

/-- CBX, Q = W (R190). -/
def execCbx (w : RelAddr) (s : State) : Result :=
  withAddress s (.direct w) fun _ => .done (copyBX s, .step)

/-- CXB, Q = W (R191). -/
def execCxb (w : RelAddr) (s : State) : Result :=
  withAddress s (.direct w) fun _ => .done (copyXB s, .step)

/-- XXB, Q = W (R192). -/
def execXxb (w : RelAddr) (s : State) : Result :=
  withAddress s (.direct w) fun _ => .done (exchangeXB s, .step)

/-- CXA, Q = W (R193). -/
def execCxa (w : RelAddr) (s : State) : Result :=
  withAddress s (.direct w) fun _ => .done (copyXA s, .step)

/-- CAX, Q = W (R194). -/
def execCax (w : RelAddr) (s : State) : Result :=
  withAddress s (.direct w) fun _ => .done (copyAX s, .step)

/-- XXA, Q = W (R195). -/
def execXxa (w : RelAddr) (s : State) : Result :=
  withAddress s (.direct w) fun _ => .done (exchangeXA s, .step)

/-- CNA, Q = W (R196). -/
def execCna (w : RelAddr) (s : State) : Result :=
  withAddress s (.direct w) fun _ => .done (negateA s, .step)

end Sys2Proof.Machine
end

