-- ==== Sys2Proof/Machine/Shift.lean ====
section
/-! DEFINITION. SHIFT and its sub-cases on the 48-bit pair A, B (45_shift.md). -/

namespace Sys2Proof.Machine

/-- The five kinds of shift (30_encoding.md R92). -/
inductive ShiftKind where
  /-- LCY, left cycle. -/
  | leftCycle
  /-- LSH, left shift, zeros brought in. -/
  | left
  /-- RSH, right shift, the sign of A brought in. -/
  | right
  /-- LRSH, right shift, zeros brought in. -/
  | logicalRight
  /-- RCY, right cycle. -/
  | rightCycle
  deriving DecidableEq, Repr

/-- The kind a field names; 5, 6 and 7 name none (R170, R177). -/
def shiftKindOf (field : BitVec 3) : Option ShiftKind :=
  match field.toNat with
  | 0 => some .leftCycle
  | 1 => some .left
  | 2 => some .right
  | 3 => some .logicalRight
  | 4 => some .rightCycle
  | _ => none

/-- One place: `Step_kind` (R171 to R175). -/
def oneShift (kind : ShiftKind) (ab : DoubleWord) : DoubleWord :=
  match kind with
  | .leftCycle => ab.extractLsb' 0 47 ++ ab.extractLsb' 47 1
  | .left => ab.extractLsb' 0 47 ++ 0#1
  | .right => ab.extractLsb' 47 1 ++ ab.extractLsb' 1 47
  | .logicalRight => 0#1 ++ ab.extractLsb' 1 47
  | .rightCycle => ab.extractLsb' 0 1 ++ ab.extractLsb' 1 47

/-- `n` places, each by one step: the count is not clipped to 48 (R170, R176). -/
def shiftTimes (kind : ShiftKind) : Nat → DoubleWord → DoubleWord
  | 0, ab => ab
  | n + 1, ab => shiftTimes kind n (oneShift kind ab)

/-- A and B as one register, AR the more significant half (10_state.md R22). -/
def State.pair (s : State) : DoubleWord := s.ar ++ s.br

/-- `AR <- AB[47:24]; BR <- AB[23:0]` (R170). -/
def State.setPair (s : State) (ab : DoubleWord) : State :=
  { s with ar := ab.extractLsb' 24 24, br := ab.extractLsb' 0 24 }

/-- The pair shifted by the count in Q (R170). -/
def shiftPair (kind : ShiftKind) (q : Word) (s : State) : State :=
  s.setPair (shiftTimes kind (shiftCount q) s.pair)

/-- SHIFT: the kind and the count come from Q; kinds 5, 6 and 7 trap with nothing changed (R170, R177). -/
def execShift (a : Operand) (s : State) : Result :=
  withAddress s a fun q =>
    match shiftKindOf (shiftKind q) with
    | some kind => .done (shiftPair kind q s, .step)
    | none => .trap .illegalShift

/-- LCY, Q = W (R171). -/
def execLcy (w : RelAddr) (s : State) : Result :=
  withAddress s (.direct w) fun q => .done (shiftPair .leftCycle q s, .step)

/-- LSH, Q = W (R172). -/
def execLsh (w : RelAddr) (s : State) : Result :=
  withAddress s (.direct w) fun q => .done (shiftPair .left q s, .step)

/-- RSH, Q = W (R173). -/
def execRsh (w : RelAddr) (s : State) : Result :=
  withAddress s (.direct w) fun q => .done (shiftPair .right q s, .step)

/-- LRSH, Q = W (R174). -/
def execLrsh (w : RelAddr) (s : State) : Result :=
  withAddress s (.direct w) fun q => .done (shiftPair .logicalRight q s, .step)

/-- RCY, Q = W (R175). -/
def execRcy (w : RelAddr) (s : State) : Result :=
  withAddress s (.direct w) fun q => .done (shiftPair .rightCycle q s, .step)

/-- SHIFT with kind 5 in the word traps (R177). -/
def execShiftTrap5 (w : RelAddr) (s : State) : Result :=
  withAddress s (.direct w) fun _ => .trap .illegalShift

/-- SHIFT with kind 6 or 7 in the word traps (R177). -/
def execShiftTrap6 (w : RelAddr) (s : State) : Result :=
  withAddress s (.direct w) fun _ => .trap .illegalShift

end Sys2Proof.Machine
end

