-- ==== Sys2Proof/Machine/Signal.lean ====
section
/-! DEFINITION. UPOT, UPIN, and UPS with its sub-cases (48_io_and_ups.md). -/

namespace Sys2Proof.Machine

/-- UPOT: `Emit(Output(AR, BR))`; Q is computed and not used (R210). -/
def execUpot (a : Operand) (s : State) : Result :=
  withAddress s a fun _ => .done (s.emit (.output s.ar s.br), .step)

/-- The value this UPIN draws: a free value (R211; log 5). -/
def drawnInput (s : State) : Word := Config.deviceInput s.draws s.ar

/-- UPIN: `BR <- v; Emit(Input(AR, v))` with `v` drawn; Q is computed and not used (R211). -/
def execUpin (a : Operand) (s : State) : Result :=
  withAddress s a fun _ =>
    .done (({ s with br := drawnInput s, draws := s.draws + 1 }).emit (.input s.ar (drawnInput s)), .step)

/-- STR: `Emit(Strobe(m))` (R213). -/
def strobe (q : Word) (s : State) : State := s.emit (.strobe (signalParameter q))

/-- UPR: `PROT <- 0; SCHED <- MODE{3}; Emit(Unprotect)` (R216). -/
def unprotect (s : State) : State :=
  ({ s with prot := 0, sched := s.mode.getLsbD 20 }).emit .unprotect

/-- `MODE{3}` = MODE[20], mask 04000000B, set to a bit (10_state.md R31). -/
def withScheduleBit (mode : Word) (b : Bool) : Word :=
  if b then mode ||| 0o4000000#24 else mode &&& ~~~0o4000000#24

/-- PRO: `MODE{3} <- SCHED; SCHED <- 0; PROT <- PROT OR m; Emit(Protect(m))` (R215). -/
def protect (q : Word) (s : State) : State :=
  ({ s with mode := withScheduleBit s.mode s.sched, sched := false, prot := s.prot ||| signalParameter q }).emit
    (.protect (signalParameter q))

/-- The sub-case that Q names; 3 is "Undefined" and has no effect to model (R212, R214). -/
def signal (q : Word) (s : State) : Stage (State × Ending) :=
  match (signalField q).toNat with
  | 0 => .done (strobe q s, .step)
  | 1 => .done (unprotect s, .step)
  | 2 => .done (protect q s, .step)
  | _ => .refused .undefinedSignal

/-- UPS: the sub-case and the parameter come from Q (R212). -/
def execUps (a : Operand) (s : State) : Result :=
  withAddress s a fun q => signal q s

/-- STR, Q = W (R213). -/
def execStr (w : RelAddr) (s : State) : Result :=
  withAddress s (.direct w) fun q => .done (strobe q s, .step)

/-- UPR, Q = W (R216). -/
def execUpr (w : RelAddr) (s : State) : Result :=
  withAddress s (.direct w) fun _ => .done (unprotect s, .step)

/-- PRO, Q = W (R215). -/
def execPro (w : RelAddr) (s : State) : Result :=
  withAddress s (.direct w) fun q => .done (protect q s, .step)

/-- UPS sub-case 3 with X = I = 0: "Undefined", no semantics, never a no-op and never a trap (R214). -/
def execUpsUndefined (w : RelAddr) (s : State) : Result :=
  withAddress s (.direct w) fun _ => .refused .undefinedSignal

end Sys2Proof.Machine
end

