-- ==== Sys2Proof/Machine/Skip.lean ====
section
/-! DEFINITION. Skip: SKE, SKM, SKG, SKA, SKB, SKN, SKR (43_skip.md). -/

namespace Sys2Proof.Machine

/-- SKE: `SKIP IF AR = D`, all 24 bits (R150). -/
def execSke (a : Operand) (s : State) : Result :=
  withOperand s a fun d => (s, skipIf (s.ar == d))

/-- SKM: `SKIP IF AR AND BR = D AND BR` (R151). -/
def execSkm (a : Operand) (s : State) : Result :=
  withOperand s a fun d => (s, skipIf (equalUnder s.br s.ar d))

/-- SKG: `SKIP IF AR > D`, signed (R152). -/
def execSkg (a : Operand) (s : State) : Result :=
  withOperand s a fun d => (s, skipIf (signedGreater s.ar d))

/-- SKA: `SKIP IF AR AND D = 0` (R153). -/
def execSka (a : Operand) (s : State) : Result :=
  withOperand s a fun d => (s, skipIf (noCommonOnes s.ar d))

/-- SKB: `SKIP IF BR AND D = 0` (R154). -/
def execSkb (a : Operand) (s : State) : Result :=
  withOperand s a fun d => (s, skipIf (noCommonOnes s.br d))

/-- SKN: `SKIP IF D < 0` (R155). -/
def execSkn (a : Operand) (s : State) : Result :=
  withOperand s a fun d => (s, skipIf (isNegative d))

/-- SKR: `STORE(D - 1); SKIP IF D - 1 < 0` (R156). -/
def execSkr (a : Operand) (s : State) : Result :=
  updating s a (fun d => d - 1) fun t d => (t, skipIf (isNegative (d - 1)))

end Sys2Proof.Machine
end

