-- ==== Sys2Proof/Machine/Execute.lean ====
section
/-! DEFINITION. EXU, execute D as an instruction word (47_miscellaneous.md R201). -/

namespace Sys2Proof.Machine

/-- `Exec(T)` of an instruction, where an EXU among them means `execute` (40_execution_cycle.md R111). -/
def execBelow (execute : Operand → State → Result) (i : Instr) (s : State) : Result :=
  match i with
  | .hlt a => execHlt a s
  | .bru a => execBru a s
  | .etr a => execEtr a s
  | .mrg a => execMrg a s
  | .eor a => execEor a s
  | .nop a => execNop a s
  | .exu a => execute a s
  | .sta a => execSta a s
  | .stb a => execStb a s
  | .stx a => execStx a s
  | .brx a => execBrx a s
  | .brm a => execBrm a s
  | .upot a => execUpot a s
  | .upin a => execUpin a s
  | .rch a => execRch a s
  | .ske a => execSke a s
  | .brr a => execBrr a s
  | .skb a => execSkb a s
  | .skn a => execSkn a s
  | .sub a => execSub a s
  | .add a => execAdd a s
  | .skr a => execSkr a s
  | .min a => execMin a s
  | .xma a => execXma a s
  | .adm a => execAdm a s
  | .shift a => execShift a s
  | .skm a => execSkm a s
  | .ldx a => execLdx a s
  | .ska a => execSka a s
  | .skg a => execSkg a s
  | .ldb a => execLdb a s
  | .lda a => execLda a s
  | .eax a => execEax a s
  | .ups a => execUps a s
  | .pop op a => execPop op a s
  | .illegal60 op a => execIllegal60 op a s
  | .illegal50 op a => execIllegal50 op a s
  | .illegal44 op a => execIllegal44 op a s
  | .illegal42 op a => execIllegal42 op a s
  | .lcy w => execLcy w s
  | .lsh w => execLsh w s
  | .rsh w => execRsh w s
  | .lrsh w => execLrsh w s
  | .rcy w => execRcy w s
  | .shiftTrap5 w => execShiftTrap5 w s
  | .shiftTrap6 w => execShiftTrap6 w s
  | .xca w => execXca w s
  | .cca w => execCca w s
  | .clab w => execClab w s
  | .cla w => execCla w s
  | .clb w => execClb w s
  | .clx w => execClx w s
  | .cab w => execCab w s
  | .cba w => execCba w s
  | .xab w => execXab w s
  | .cbx w => execCbx w s
  | .cxb w => execCxb w s
  | .xxb w => execXxb w s
  | .cxa w => execCxa w s
  | .cax w => execCax w s
  | .xxa w => execXxa w s
  | .cna w => execCna w s
  | .str w => execStr w s
  | .upr w => execUpr w s
  | .pro w => execPro w s
  | .upsUndefined w => execUpsUndefined w s

/-- A chain of EXU words, with a bound on its length: the word at Q is executed with P unchanged, as if it had been fetched
from the location of the EXU (47_miscellaneous.md R201). -/
def executeChain : Nat → Operand → State → Result
  | 0, _, s => .next s.hang
  | n + 1, a, s =>
    match operandWord s a with
    | .done t => execBelow (executeChain n) (decodeWord t) s
    | .trap c => takeTrap c s
    | .endless => .next s.hang
    | .fault e => .fault e
    | .refused e => .refused e

/-- A bound no chain of EXU words that ends can reach: there are 2^16 address parts, and a chain that comes to one of them
twice never ends (47_miscellaneous.md R201; log 8). -/
def executeDepth : Nat := 2 ^ 16 + 1

/-- EXU: `execute D as an instruction word`, nested without limit; the chain ends once, by the executed word's ending (R201). -/
def execExu (a : Operand) (s : State) : Result :=
  executeChain executeDepth a s

end Sys2Proof.Machine
end

