-- ==== Sys2Proof/Machine/Dispatch.lean ====
section
/-! DEFINITION. The meaning of every instruction: one arm per constructor of Instr. -/

namespace Sys2Proof.Machine

open Host

def exec (i : Instr) (s : State) : Host.Outcome State Fault Refusal :=
  match i with
  | .hlt a => Sys2Proof.Machine.execHlt a s
  | .bru a => Sys2Proof.Machine.execBru a s
  | .etr a => Sys2Proof.Machine.execEtr a s
  | .mrg a => Sys2Proof.Machine.execMrg a s
  | .eor a => Sys2Proof.Machine.execEor a s
  | .nop a => Sys2Proof.Machine.execNop a s
  | .exu a => Sys2Proof.Machine.execExu a s
  | .sta a => Sys2Proof.Machine.execSta a s
  | .stb a => Sys2Proof.Machine.execStb a s
  | .stx a => Sys2Proof.Machine.execStx a s
  | .brx a => Sys2Proof.Machine.execBrx a s
  | .brm a => Sys2Proof.Machine.execBrm a s
  | .upot a => Sys2Proof.Machine.execUpot a s
  | .upin a => Sys2Proof.Machine.execUpin a s
  | .rch a => Sys2Proof.Machine.execRch a s
  | .ske a => Sys2Proof.Machine.execSke a s
  | .brr a => Sys2Proof.Machine.execBrr a s
  | .skb a => Sys2Proof.Machine.execSkb a s
  | .skn a => Sys2Proof.Machine.execSkn a s
  | .sub a => Sys2Proof.Machine.execSub a s
  | .add a => Sys2Proof.Machine.execAdd a s
  | .skr a => Sys2Proof.Machine.execSkr a s
  | .min a => Sys2Proof.Machine.execMin a s
  | .xma a => Sys2Proof.Machine.execXma a s
  | .adm a => Sys2Proof.Machine.execAdm a s
  | .shift a => Sys2Proof.Machine.execShift a s
  | .skm a => Sys2Proof.Machine.execSkm a s
  | .ldx a => Sys2Proof.Machine.execLdx a s
  | .ska a => Sys2Proof.Machine.execSka a s
  | .skg a => Sys2Proof.Machine.execSkg a s
  | .ldb a => Sys2Proof.Machine.execLdb a s
  | .lda a => Sys2Proof.Machine.execLda a s
  | .eax a => Sys2Proof.Machine.execEax a s
  | .ups a => Sys2Proof.Machine.execUps a s
  | .pop op a => Sys2Proof.Machine.execPop op a s
  | .illegal60 op a => Sys2Proof.Machine.execIllegal60 op a s
  | .illegal50 op a => Sys2Proof.Machine.execIllegal50 op a s
  | .illegal44 op a => Sys2Proof.Machine.execIllegal44 op a s
  | .illegal42 op a => Sys2Proof.Machine.execIllegal42 op a s
  | .lcy w => Sys2Proof.Machine.execLcy w s
  | .lsh w => Sys2Proof.Machine.execLsh w s
  | .rsh w => Sys2Proof.Machine.execRsh w s
  | .lrsh w => Sys2Proof.Machine.execLrsh w s
  | .rcy w => Sys2Proof.Machine.execRcy w s
  | .shiftTrap5 w => Sys2Proof.Machine.execShiftTrap5 w s
  | .shiftTrap6 w => Sys2Proof.Machine.execShiftTrap6 w s
  | .xca w => Sys2Proof.Machine.execXca w s
  | .cca w => Sys2Proof.Machine.execCca w s
  | .clab w => Sys2Proof.Machine.execClab w s
  | .cla w => Sys2Proof.Machine.execCla w s
  | .clb w => Sys2Proof.Machine.execClb w s
  | .clx w => Sys2Proof.Machine.execClx w s
  | .cab w => Sys2Proof.Machine.execCab w s
  | .cba w => Sys2Proof.Machine.execCba w s
  | .xab w => Sys2Proof.Machine.execXab w s
  | .cbx w => Sys2Proof.Machine.execCbx w s
  | .cxb w => Sys2Proof.Machine.execCxb w s
  | .xxb w => Sys2Proof.Machine.execXxb w s
  | .cxa w => Sys2Proof.Machine.execCxa w s
  | .cax w => Sys2Proof.Machine.execCax w s
  | .xxa w => Sys2Proof.Machine.execXxa w s
  | .cna w => Sys2Proof.Machine.execCna w s
  | .str w => Sys2Proof.Machine.execStr w s
  | .upr w => Sys2Proof.Machine.execUpr w s
  | .pro w => Sys2Proof.Machine.execPro w s
  | .upsUndefined w => Sys2Proof.Machine.execUpsUndefined w s

end Sys2Proof.Machine
end

