-- ==== Sys2Proof/Machine/Step.lean ====
section
/-! DEFINITION. One step of the machine, and an instruction placed where the next step fetches it. -/

namespace Sys2Proof.Machine

/-- One step: an instruction that never completes goes on for ever (70_reset_and_hazards.md R266); else a move that the outside
world makes before the next instruction is taken (R268); else the word at P is fetched and executed, before what the outside world
does next (40_execution_cycle.md R110, R111, R117). -/
def step (s : State) : Host.Outcome State Fault Refusal :=
  if s.hung then .next s
  else
    match s.nextMove with
    | some m => takeArrival m s.pastMove
    | none =>
      match fetch s with
      | .ok w => exec (decodeWord w) s.pastMove
      | .error e => .fault e

/-- `s` with the `nbits` bits of `w` stored as one word where the next step fetches, every outside move put off until after
that instruction and no endless instruction in progress (log 13). -/
def State.withFetchWord (s : State) (nbits w : Nat) : State :=
  { s with
    mem := writeWord s.mem (location s (zext24 s.p)) (BitVec.ofNat 24 (w % 2 ^ nbits))
    arrivals := quietFirst s.arrivals
    hung := false }

end Sys2Proof.Machine
end

