-- ==== Sys2Proof/Safety.lean ====
section
/-! DEFINITION. What counts as a safe run, when a run ends, and the invariant of every step. -/

/-- EXU, which takes the effect of the word it executes (47_miscellaneous.md R201). -/
def Sys2Proof.Instr.isExecute : Sys2Proof.Instr → Bool
  | .exu _ => true
  | .hlt _ | .bru _ | .etr _ | .mrg _ | .eor _ | .nop _ | .sta _ | .stb _ | .stx _ | .brx _ | .brm _ | .upot _
  | .upin _ | .rch _ | .ske _ | .brr _ | .skb _ | .skn _ | .sub _ | .add _ | .skr _ | .min _ | .xma _ | .adm _
  | .shift _ | .skm _ | .ldx _ | .ska _ | .skg _ | .ldb _ | .lda _ | .eax _ | .ups _ | .pop _ _ | .illegal60 _ _
  | .illegal50 _ _ | .illegal44 _ _ | .illegal42 _ _ | .lcy _ | .lsh _ | .rsh _ | .lrsh _ | .rcy _ | .shiftTrap5 _
  | .shiftTrap6 _ | .xca _ | .cca _ | .clab _ | .cla _ | .clb _ | .clx _ | .cab _ | .cba _ | .xab _ | .cbx _ | .cxb _
  | .xxb _ | .cxa _ | .cax _ | .xxa _ | .cna _ | .str _ | .upr _ | .pro _ | .upsUndefined _ => false

/-- The illegal operation codes (30_encoding.md R96 (c)). -/
def Sys2Proof.Instr.isIllegal : Sys2Proof.Instr → Bool
  | .illegal60 _ _ | .illegal50 _ _ | .illegal44 _ _ | .illegal42 _ _ => true
  | .hlt _ | .bru _ | .etr _ | .mrg _ | .eor _ | .nop _ | .exu _ | .sta _ | .stb _ | .stx _ | .brx _ | .brm _
  | .upot _ | .upin _ | .rch _ | .ske _ | .brr _ | .skb _ | .skn _ | .sub _ | .add _ | .skr _ | .min _ | .xma _
  | .adm _ | .shift _ | .skm _ | .ldx _ | .ska _ | .skg _ | .ldb _ | .lda _ | .eax _ | .ups _ | .pop _ _ | .lcy _
  | .lsh _ | .rsh _ | .lrsh _ | .rcy _ | .shiftTrap5 _ | .shiftTrap6 _ | .xca _ | .cca _ | .clab _ | .cla _ | .clb _
  | .clx _ | .cab _ | .cba _ | .xab _ | .cbx _ | .cxb _ | .xxb _ | .cxa _ | .cax _ | .xxa _ | .cna _ | .str _
  | .upr _ | .pro _ | .upsUndefined _ => false

/-- The instructions whose own rule stores (20_memory.md R55). -/
def Sys2Proof.Instr.storesMemory : Sys2Proof.Instr → Bool
  | .sta _ | .stb _ | .stx _ | .brm _ | .skr _ | .min _ | .xma _ | .adm _ | .pop _ _ => true
  | .hlt _ | .bru _ | .etr _ | .mrg _ | .eor _ | .nop _ | .exu _ | .brx _ | .upot _ | .upin _ | .rch _ | .ske _
  | .brr _ | .skb _ | .skn _ | .sub _ | .add _ | .shift _ | .skm _ | .ldx _ | .ska _ | .skg _ | .ldb _ | .lda _
  | .eax _ | .ups _ | .illegal60 _ _ | .illegal50 _ _ | .illegal44 _ _ | .illegal42 _ _ | .lcy _ | .lsh _ | .rsh _
  | .lrsh _ | .rcy _ | .shiftTrap5 _ | .shiftTrap6 _ | .xca _ | .cca _ | .clab _ | .cla _ | .clb _ | .clx _ | .cab _
  | .cba _ | .xab _ | .cbx _ | .cxb _ | .xxb _ | .cxa _ | .cax _ | .xxa _ | .cna _ | .str _ | .upr _ | .pro _
  | .upsUndefined _ => false

/-- The instructions that may assign P (40_execution_cycle.md R117 (b)). -/
def Sys2Proof.Instr.assignsP : Sys2Proof.Instr → Bool
  | .bru _ | .brx _ | .brm _ | .brr _ | .pop _ _ => true
  | .hlt _ | .etr _ | .mrg _ | .eor _ | .nop _ | .exu _ | .sta _ | .stb _ | .stx _ | .upot _ | .upin _ | .rch _
  | .ske _ | .skb _ | .skn _ | .sub _ | .add _ | .skr _ | .min _ | .xma _ | .adm _ | .shift _ | .skm _ | .ldx _
  | .ska _ | .skg _ | .ldb _ | .lda _ | .eax _ | .ups _ | .illegal60 _ _ | .illegal50 _ _ | .illegal44 _ _
  | .illegal42 _ _ | .lcy _ | .lsh _ | .rsh _ | .lrsh _ | .rcy _ | .shiftTrap5 _ | .shiftTrap6 _ | .xca _ | .cca _
  | .clab _ | .cla _ | .clb _ | .clx _ | .cab _ | .cba _ | .xab _ | .cbx _ | .cxb _ | .xxb _ | .cxa _ | .cax _
  | .xxa _ | .cna _ | .str _ | .upr _ | .pro _ | .upsUndefined _ => false

/-- The instructions that may execute Skip (43_skip.md). -/
def Sys2Proof.Instr.maySkip : Sys2Proof.Instr → Bool
  | .ske _ | .skb _ | .skn _ | .skr _ | .skm _ | .ska _ | .skg _ => true
  | .hlt _ | .bru _ | .etr _ | .mrg _ | .eor _ | .nop _ | .exu _ | .sta _ | .stb _ | .stx _ | .brx _ | .brm _
  | .upot _ | .upin _ | .rch _ | .brr _ | .sub _ | .add _ | .min _ | .xma _ | .adm _ | .shift _ | .ldx _ | .ldb _
  | .lda _ | .eax _ | .ups _ | .pop _ _ | .illegal60 _ _ | .illegal50 _ _ | .illegal44 _ _ | .illegal42 _ _ | .lcy _
  | .lsh _ | .rsh _ | .lrsh _ | .rcy _ | .shiftTrap5 _ | .shiftTrap6 _ | .xca _ | .cca _ | .clab _ | .cla _ | .clb _
  | .clx _ | .cab _ | .cba _ | .xab _ | .cbx _ | .cxb _ | .xxb _ | .cxa _ | .cax _ | .xxa _ | .cna _ | .str _
  | .upr _ | .pro _ | .upsUndefined _ => false

/-- The instructions that can never raise a trap (60_exceptions.md R232); SHIFT, which traps by its kind, and EXU stand apart. -/
def Sys2Proof.Instr.neverTraps : Sys2Proof.Instr → Bool
  | .bru _ | .etr _ | .mrg _ | .eor _ | .nop _ | .brx _ | .upot _ | .upin _ | .rch _ | .ske _ | .brr _ | .skb _
  | .skn _ | .sub _ | .add _ | .skm _ | .ldx _ | .ska _ | .skg _ | .ldb _ | .lda _ | .eax _ | .ups _ | .lcy _
  | .lsh _ | .rsh _ | .lrsh _ | .rcy _ | .xca _ | .cca _ | .clab _ | .cla _ | .clb _ | .clx _ | .cab _ | .cba _
  | .xab _ | .cbx _ | .cxb _ | .xxb _ | .cxa _ | .cax _ | .xxa _ | .cna _ | .str _ | .upr _ | .pro _
  | .upsUndefined _ => true
  | .hlt _ | .exu _ | .sta _ | .stb _ | .stx _ | .brm _ | .skr _ | .min _ | .xma _ | .adm _ | .shift _ | .pop _ _
  | .illegal60 _ _ | .illegal50 _ _ | .illegal44 _ _ | .illegal42 _ _ | .shiftTrap5 _ | .shiftTrap6 _ => false

/-- The instructions that may write A (10_state.md R21); the parents of sub-cases and EXU among them. -/
def Sys2Proof.Instr.mayWriteA : Sys2Proof.Instr → Bool
  | .etr _ | .mrg _ | .eor _ | .exu _ | .rch _ | .sub _ | .add _ | .xma _ | .shift _ | .lda _ | .lcy _ | .lsh _
  | .rsh _ | .lrsh _ | .rcy _ | .xca _ | .cca _ | .clab _ | .cla _ | .cba _ | .xab _ | .cxa _ | .xxa _ | .cna _ => true
  | .hlt _ | .bru _ | .nop _ | .sta _ | .stb _ | .stx _ | .brx _ | .brm _ | .upot _ | .upin _ | .ske _ | .brr _
  | .skb _ | .skn _ | .skr _ | .min _ | .adm _ | .skm _ | .ldx _ | .ska _ | .skg _ | .ldb _ | .eax _ | .ups _
  | .pop _ _ | .illegal60 _ _ | .illegal50 _ _ | .illegal44 _ _ | .illegal42 _ _ | .shiftTrap5 _ | .shiftTrap6 _
  | .clb _ | .clx _ | .cab _ | .cbx _ | .cxb _ | .xxb _ | .cax _ | .str _ | .upr _ | .pro _ | .upsUndefined _ => false

/-- The instructions that may write B (10_state.md R21). -/
def Sys2Proof.Instr.mayWriteB : Sys2Proof.Instr → Bool
  | .exu _ | .upin _ | .rch _ | .shift _ | .ldb _ | .lcy _ | .lsh _ | .rsh _ | .lrsh _ | .rcy _ | .clab _ | .clb _
  | .cab _ | .xab _ | .cxb _ | .xxb _ => true
  | .hlt _ | .bru _ | .etr _ | .mrg _ | .eor _ | .nop _ | .sta _ | .stb _ | .stx _ | .brx _ | .brm _ | .upot _
  | .ske _ | .brr _ | .skb _ | .skn _ | .sub _ | .add _ | .skr _ | .min _ | .xma _ | .adm _ | .skm _ | .ldx _
  | .ska _ | .skg _ | .lda _ | .eax _ | .ups _ | .pop _ _ | .illegal60 _ _ | .illegal50 _ _ | .illegal44 _ _
  | .illegal42 _ _ | .shiftTrap5 _ | .shiftTrap6 _ | .xca _ | .cca _ | .cla _ | .clx _ | .cba _ | .cbx _ | .cxa _
  | .cax _ | .xxa _ | .cna _ | .str _ | .upr _ | .pro _ | .upsUndefined _ => false

/-- The instructions that may write X (10_state.md R21). -/
def Sys2Proof.Instr.mayWriteX : Sys2Proof.Instr → Bool
  | .exu _ | .brx _ | .rch _ | .ldx _ | .eax _ | .clx _ | .cbx _ | .xxb _ | .cax _ | .xxa _ => true
  | .hlt _ | .bru _ | .etr _ | .mrg _ | .eor _ | .nop _ | .sta _ | .stb _ | .stx _ | .brm _ | .upot _ | .upin _
  | .ske _ | .brr _ | .skb _ | .skn _ | .sub _ | .add _ | .skr _ | .min _ | .xma _ | .adm _ | .shift _ | .skm _
  | .ska _ | .skg _ | .ldb _ | .lda _ | .ups _ | .pop _ _ | .illegal60 _ _ | .illegal50 _ _ | .illegal44 _ _
  | .illegal42 _ _ | .lcy _ | .lsh _ | .rsh _ | .lrsh _ | .rcy _ | .shiftTrap5 _ | .shiftTrap6 _ | .xca _ | .cca _
  | .clab _ | .cla _ | .clb _ | .cab _ | .cba _ | .xab _ | .cxb _ | .cxa _ | .cna _ | .str _ | .upr _ | .pro _
  | .upsUndefined _ => false

/-- The address part whose effective address an instruction computes; a pop computes none (40_execution_cycle.md R111, R112). -/
def Sys2Proof.Instr.addressPart : Sys2Proof.Instr → Option Sys2Proof.Operand
  | .hlt a => some a
  | .bru a => some a
  | .etr a => some a
  | .mrg a => some a
  | .eor a => some a
  | .nop a => some a
  | .exu a => some a
  | .sta a => some a
  | .stb a => some a
  | .stx a => some a
  | .brx a => some a
  | .brm a => some a
  | .upot a => some a
  | .upin a => some a
  | .rch a => some a
  | .ske a => some a
  | .brr a => some a
  | .skb a => some a
  | .skn a => some a
  | .sub a => some a
  | .add a => some a
  | .skr a => some a
  | .min a => some a
  | .xma a => some a
  | .adm a => some a
  | .shift a => some a
  | .skm a => some a
  | .ldx a => some a
  | .ska a => some a
  | .skg a => some a
  | .ldb a => some a
  | .lda a => some a
  | .eax a => some a
  | .ups a => some a
  | .illegal60 _ a => some a
  | .illegal50 _ a => some a
  | .illegal44 _ a => some a
  | .illegal42 _ a => some a
  | .lcy w => some (.direct w)
  | .lsh w => some (.direct w)
  | .rsh w => some (.direct w)
  | .lrsh w => some (.direct w)
  | .rcy w => some (.direct w)
  | .shiftTrap5 w => some (.direct w)
  | .shiftTrap6 w => some (.direct w)
  | .xca w => some (.direct w)
  | .cca w => some (.direct w)
  | .clab w => some (.direct w)
  | .cla w => some (.direct w)
  | .clb w => some (.direct w)
  | .clx w => some (.direct w)
  | .cab w => some (.direct w)
  | .cba w => some (.direct w)
  | .xab w => some (.direct w)
  | .cbx w => some (.direct w)
  | .cxb w => some (.direct w)
  | .xxb w => some (.direct w)
  | .cxa w => some (.direct w)
  | .cax w => some (.direct w)
  | .xxa w => some (.direct w)
  | .cna w => some (.direct w)
  | .str w => some (.direct w)
  | .upr w => some (.direct w)
  | .pro w => some (.direct w)
  | .upsUndefined w => some (.direct w)
  | .pop _ _ => none

namespace Sys2Proof.Machine

/-- A run of `n` steps from `s` neither faults nor is refused. -/
def SafeFor (n : Nat) (s : State) : Prop := ∃ t, Sys2Proof.core.run n s = .next t

/-- The three locations a trap references exist: the two reload words and relative 2 under the reloaded REL
(60_exceptions.md R236; 20_memory.md R57). -/
abbrev State.trapReady (s : State) : Prop :=
  s.params.relSrc < s.params.memWords ∧ s.params.boundSrc < s.params.memWords ∧
    (2#24 + readWord s.mem s.params.relSrc).toNat < s.params.memWords

/-- What a trap from `s` leaves (60_exceptions.md R236): everything it does not name is as it was. -/
def State.trapped (s : State) (cause : Cause) : State :=
  { s with
    rel := readWord s.mem s.params.relSrc
    bound := readWord s.mem s.params.boundSrc
    ioctl := 0
    mem := writeWord s.mem (2#24 + readWord s.mem s.params.relSrc).toNat (zext24 s.p)
    p := 3
    events := .trap cause :: s.events }

/-- The cause of the trap sequence that led from `s` to `t` in one step, if one did: every trap sequence emits its event
(60_exceptions.md R236). -/
def trapTaken (s t : State) : Option Cause :=
  if s.events.length < t.events.length then
    match t.events with
    | .trap c :: _ => some c
    | _ => none
  else none

/-- How a run under test ends (70_reset_and_hazards.md R264). -/
inductive RunEnd where
  /-- The first trap sequence after launch completed, in this state. `Trap(Halt)` is the normal end. -/
  | trapped (cause : Cause) (s : State)
  /-- No trap yet within the steps allowed. -/
  | running (s : State)
  /-- A step had no next state. -/
  | stopped
  deriving DecidableEq, Repr

/-- At most `n` steps, ended by the first trap sequence (70_reset_and_hazards.md R264; decision D29). -/
def runToTrap : Nat → State → RunEnd
  | 0, s => .running s
  | n + 1, s =>
    match step s with
    | .next t =>
      match trapTaken s t with
      | some c => .trapped c t
      | none => runToTrap n t
    | _ => .stopped

/-- Every byte that memory lists belongs to a word that exists (20_memory.md R50, R57). -/
abbrev Memory.inside (m : Memory) (words : Nat) : Prop := ∀ c ∈ m, c.1 < 3 * words

/-- The invariant of every step: the open parameters meet their constraints (00_scope.md R7), memory is in its canonical form
and lists only words that exist. -/
abbrev State.inv (s : State) : Prop := s.params.valid ∧ s.mem.wf ∧ s.mem.inside s.params.memWords

end Sys2Proof.Machine
end

