-- ==== Sys2Proof/Certificates/Slice0/Obligations.lean ====
section
/-! DEFINITION. The statements about the ITP that the provers settle. Where a statement rests on a decision of the spec
(92_eei_decisions.md D<n>) or on a choice of this model (log <n>), its docstring names it. `s.trapped c` (Safety.lean) is the
state a trap sequence leaves, which `TrapSequenceLeaves` states field by field; `s.trapReady` says that the three locations a
trap references exist. -/

open Sys2Proof Sys2Proof.Machine

/-! ## Encoding -/

/-- Decode and encode agree: every well-formed instruction, with every operand, decodes from its own bytes and from its own
word. The field positions are decision D1; that X = I = 0 words belong to the sub-case rows is log 11. -/
def Obligations.EncodedInstructionDecodes : Prop :=
  ∀ i : Instr, i.wellFormed = true → decode (encode i) = .ok (i, []) ∧ decodeWord (encodeWord i) = i

/-- Every word holds a well-formed instruction, whose encoding is the word with bit 0 cleared; bit 0 is the only bit the decoder
ignores, and the instruction does not depend on it (decision D4, log 12). -/
def Obligations.DecodedWordEncodesBack : Prop :=
  ∀ w : Word, (decodeWord w).wellFormed = true ∧ encodeWord (decodeWord w) = w &&& 0o37777777#24 ∧
    decodeWord (w ^^^ 0o40000000#24) = decodeWord w

/-- Words written out in the spec's octal (95_test_vectors.md section 2.1 and the examples of the instruction rules) decode to the
instruction they stand for. The field positions are decision D1; the sub-case constructors are log 11. -/
def Obligations.SpecWordsDecode : Prop :=
  decodeWord 0o03701000#24 = .lda ⟨false, false, 0o1000⟩ ∧
  decodeWord 0o23741000#24 = .lda ⟨true, true, 0o1000⟩ ∧
  decodeWord 0o00000000#24 = .hlt ⟨false, false, 0⟩ ∧
  decodeWord 0o02402000#24 = .add ⟨false, false, 0o2000⟩ ∧
  decodeWord 0o03502000#24 = .skg ⟨false, false, 0o2000⟩ ∧
  decodeWord 0o01302000#24 = .brm ⟨false, false, 0o2000⟩ ∧
  decodeWord 0o03100405#24 = .lsh 0o405 ∧
  decodeWord 0o23100400#24 = .shift ⟨true, false, 0o400⟩ ∧
  decodeWord 0o01600001#24 = .xca 1 ∧
  decodeWord 0o04101005#24 = .pro 0o1005 ∧
  decodeWord 0o01400000#24 = .upot ⟨false, false, 0⟩ ∧
  decodeWord 0o12301234#24 = .pop 0o23 ⟨false, false, 0o1234⟩ ∧
  decodeWord 0o04200000#24 = .illegal42 0o42 ⟨false, false, 0⟩

/-- A word is a pop exactly if its pop bit is set, whatever its other fields hold; else it is illegal exactly if its operation
code is 42B or more (decision D8). -/
def Obligations.PopBitAndOperationCodeClassify : Prop :=
  ∀ w : Word,
    (fieldPop w = true → decodeWord w = .pop (fieldOp w) (operandOf w)) ∧
    (fieldPop w = false →
      (∀ op a, decodeWord w ≠ .pop op a) ∧ ((decodeWord w).isIllegal = true ↔ 0o42 ≤ (fieldOp w).toNat))

/-- A direct SHIFT, RCH or UPS word means what its parent row means with Q = W: the sub-case rows are the static special case of
the run-time choice (log 11). -/
def Obligations.SubcaseRowsMeanTheirParent : Prop :=
  ∀ (s : State) (w : RelAddr),
    exec (decodeWord (encodeMachine 0o31 (.direct w))) s = exec (.shift (.direct w)) s ∧
    exec (decodeWord (encodeMachine 0o16 (.direct w))) s = exec (.rch (.direct w)) s ∧
    exec (decodeWord (encodeMachine 0o41 (.direct w))) s = exec (.ups (.direct w)) s

/-! ## The effective address and memory -/

/-- `EA` is the source's loop: one pass, and where the word fetched is a normal indirect address word the loop again with that
word's fields. That no bound on the passes shows is log 8 (decision D33); that a word which does not exist ends it in a fault is
log 9 (decision D6). It cannot trap or be refused, and it reads XR, REL, memory, LW_WIDTH and MEM_WORDS only. -/
def Obligations.EffectiveAddressIsTheLoop : Prop :=
  ∀ (s : State) (a : Operand),
    (let q : Word := if a.x then zext24 (low14 (zext24 a.w + s.xr)) else zext24 a.w
     ea s a =
      if a.i then
        match contents s q with
        | .error e => .fault e
        | .ok t =>
          if t.getLsbD 23 then
            .done (BitVec.ofNat 24 ((if fieldX t then t + s.xr else t).toNat % 2 ^ s.params.lwWidth) + 0o40000000#24)
          else ea s ⟨fieldX t, fieldI t, fieldW t⟩
      else .done q) ∧
    (∀ c, ea s a ≠ .trap c) ∧ (∀ r, ea s a ≠ .refused r) ∧
    (∀ u : State, u.xr = s.xr → u.rel = s.rel → u.mem = s.mem → u.params.lwExtra = s.params.lwExtra →
      u.params.memWords = s.params.memWords → ea u a = ea s a)

/-- The forms without indirection: Q is W, or W plus the low 14 bits of XR modulo 2^14. -/
def Obligations.DirectAndIndexedForms : Prop :=
  ∀ (s : State) (a : Operand), a.i = false →
    ∃ q : Word, ea s a = .done q ∧
      q.toNat = (if a.x then (a.w.toNat + s.xr.toNat) % 2 ^ 14 else a.w.toNat)

/-- An effective address is relative and at most 37777B, or absolute and names a location below 2^LW_WIDTH: the width of LW is the
open parameter of decision D3 (30_encoding.md R85; log 4, log 16). -/
def Obligations.EffectiveAddressKinds : Prop :=
  ∀ (s : State) (a : Operand) (q : Word), ea s a = .done q →
    (isAbs q = false → q.toNat ≤ 0o37777) ∧
    (isAbs q = true → absLoc q < 2 ^ s.params.lwWidth ∧ q.toNat = 2 ^ 23 + absLoc q)

/-- The computation is endless exactly if the chain of normal indirect address words never ends (decision D33, log 8): the
model's bound on passes cuts off no chain that ends. -/
def Obligations.EndlessIffChainNeverEnds : Prop :=
  ∀ (s : State) (a : Operand),
    ea s a = .endless ↔
      ∃ f : Nat → Operand, f 0 = a ∧ ∀ k, (f k).i = true ∧
        ∃ t, contents s (passAddress s (f k)) = .ok t ∧ t.getLsbD 23 = false ∧ f (k + 1) = operandOf t

/-- Every instruction that computes an effective address, whether or not it uses it, hangs where the chain never ends; nothing
else changes (decisions D11, D33, log 8). -/
def Obligations.EndlessChainHangsEveryInstruction : Prop :=
  ∀ (i : Instr) (a : Operand) (s : State), i.addressPart = some a → ea s a = .endless →
    exec i s = .next { s with hung := true }

/-- An instruction that never completes goes on for ever: no step changes anything, and none stops (log 8). -/
def Obligations.HungMachineStaysAsItIs : Prop :=
  ∀ (s : State) (n : Nat), s.hung = true → Sys2Proof.core.run n s = .next s

/-- CONTENTS: an absolute address is used as it stands, a relative one has REL added modulo 2^24 (decision D6, log 16); the word
there is read if the location exists (decision D6, log 9). -/
def Obligations.ContentsReadsTheLocation : Prop :=
  ∀ (s : State) (q : Word),
    (isAbs q = true → absLoc q < s.params.memWords → contents s q = .ok (readWord s.mem (absLoc q))) ∧
    (isAbs q = false → (q.toNat + s.rel.toNat) % 2 ^ 24 < s.params.memWords →
      contents s q = .ok (readWord s.mem ((q.toNat + s.rel.toNat) % 2 ^ 24)))

/-- A word write followed by a word read of the same location is the identity, and every other word and every byte outside the
word is as before. The byte layout is the model's (log 1). -/
def Obligations.WordReadAfterWrite : Prop :=
  ∀ (m : Memory) (loc : Nat) (v : Word),
    (m.wf → readWord (writeWord m loc v) loc = v) ∧
    (∀ other, other ≠ loc → readWord (writeWord m loc v) other = readWord m other) ∧
    (∀ b, b < 3 * loc ∨ 3 * loc + 3 ≤ b → readByte (writeWord m loc v) b = readByte m b)

/-! ## Data transfer, arithmetic and logical -/

/-- LDA, LDB and LDX load the operand word, whatever the form of the address; nothing else changes but P. -/
def Obligations.LoadsPutTheOperandInTheirRegister : Prop :=
  ∀ (s : State) (a : Operand) (q d : Word), ea s a = .done q → contents s q = .ok d →
    exec (.lda a) s = .next { s with ar := d, p := s.p + 1 } ∧
    exec (.ldb a) s = .next { s with br := d, p := s.p + 1 } ∧
    exec (.ldx a) s = .next { s with xr := d, p := s.p + 1 } ∧
    encodeWord (.lda a) = encodeFields a.x false 0o37 a.i a.w ∧
    encodeWord (.ldb a) = encodeFields a.x false 0o36 a.i a.w ∧
    encodeWord (.ldx a) = encodeFields a.x false 0o33 a.i a.w

/-- STA, STB and STX store their register at the location Q names, if Q is absolute or Q < BOUND unsigned (decision D7); in
canonical memory that word then reads as the register, every byte outside it reads as before, nothing else changes but P. -/
def Obligations.StoresPutTheirRegisterAtTheAddress : Prop :=
  ∀ (s : State) (a : Operand) (q : Word), ea s a = .done q → isAbs q = true ∨ q.toNat < s.bound.toNat →
    location s q < s.params.memWords →
    exec (.sta a) s = .next { s with mem := writeWord s.mem (location s q) s.ar, p := s.p + 1 } ∧
    exec (.stb a) s = .next { s with mem := writeWord s.mem (location s q) s.br, p := s.p + 1 } ∧
    exec (.stx a) s = .next { s with mem := writeWord s.mem (location s q) s.xr, p := s.p + 1 } ∧
    ∀ t, exec (.sta a) s = .next t ∨ exec (.stb a) s = .next t ∨ exec (.stx a) s = .next t →
      (s.mem.wf →
        (exec (.sta a) s = .next t → contents t q = .ok s.ar) ∧ (exec (.stb a) s = .next t → contents t q = .ok s.br) ∧
        (exec (.stx a) s = .next t → contents t q = .ok s.xr)) ∧
      ∀ b, b < 3 * location s q ∨ 3 * location s q + 3 ≤ b → readByte t.mem b = readByte s.mem b

/-- XMA exchanges A and the operand word, if the store is allowed (decision D7). -/
def Obligations.ExchangeSwapsMemoryAndA : Prop :=
  ∀ (s : State) (a : Operand) (q d : Word), ea s a = .done q → contents s q = .ok d →
    isAbs q = true ∨ q.toNat < s.bound.toNat →
    exec (.xma a) s = .next { s with ar := d, mem := writeWord s.mem (location s q) s.ar, p := s.p + 1 } ∧
    ∀ b, b < 3 * location s q ∨ 3 * location s q + 3 ≤ b →
      readByte (writeWord s.mem (location s q) s.ar) b = readByte s.mem b

/-- MIN stores D + 1 and ADM stores D + AR, modulo 2^24 (decision D15), if the store is allowed (decision D7); no register but P
changes and every byte outside the operand word reads as before. -/
def Obligations.MemoryIncrementAndAdd : Prop :=
  ∀ (s : State) (a : Operand) (q d : Word), ea s a = .done q → contents s q = .ok d →
    isAbs q = true ∨ q.toNat < s.bound.toNat →
    (∃ v : Word, v.toNat = (d.toNat + 1) % 2 ^ 24 ∧
      exec (.min a) s = .next { s with mem := writeWord s.mem (location s q) v, p := s.p + 1 }) ∧
    (∃ v : Word, v.toNat = (d.toNat + s.ar.toNat) % 2 ^ 24 ∧
      exec (.adm a) s = .next { s with mem := writeWord s.mem (location s q) v, p := s.p + 1 }) ∧
    ∀ v b, b < 3 * location s q ∨ 3 * location s q + 3 ≤ b →
      readByte (writeWord s.mem (location s q) v) b = readByte s.mem b

/-- ADD and SUB: the exact sum and difference modulo 2^24 in A, nothing recorded of a carry or an overflow (decision D15); nothing
else changes but P. -/
def Obligations.AddAndSubtractWrap : Prop :=
  ∀ (s : State) (a : Operand) (q d : Word), ea s a = .done q → contents s q = .ok d →
    (∃ v : Word, (v.toNat : Int) = ((s.ar.toNat : Int) + d.toNat) % 2 ^ 24 ∧
      exec (.add a) s = .next { s with ar := v, p := s.p + 1 }) ∧
    (∃ v : Word, (v.toNat : Int) = ((s.ar.toNat : Int) - d.toNat) % 2 ^ 24 ∧
      exec (.sub a) s = .next { s with ar := v, p := s.p + 1 })

/-- ETR, MRG and EOR: bitwise and, or, exclusive or of A and the operand word, on all 24 bits; nothing else changes but P. -/
def Obligations.LogicalInstructionsAreBitwise : Prop :=
  ∀ (s : State) (a : Operand) (q d : Word), ea s a = .done q → contents s q = .ok d →
    exec (.etr a) s = .next { s with ar := s.ar &&& d, p := s.p + 1 } ∧
    exec (.mrg a) s = .next { s with ar := s.ar ||| d, p := s.p + 1 } ∧
    exec (.eor a) s = .next { s with ar := s.ar ^^^ d, p := s.p + 1 } ∧
    encodeWord (.etr a) = encodeFields a.x false 0o02 a.i a.w ∧
    encodeWord (.mrg a) = encodeFields a.x false 0o03 a.i a.w ∧
    encodeWord (.eor a) = encodeFields a.x false 0o04 a.i a.w

/-! ## Skips -/

/-- SKE, SKM, SKA and SKB skip exactly one word if their condition holds; nothing else changes. -/
def Obligations.EqualityAndMaskSkips : Prop :=
  ∀ (s : State) (a : Operand) (q d : Word), ea s a = .done q → contents s q = .ok d →
    exec (.ske a) s = .next { s with p := if s.ar = d then s.p + 2 else s.p + 1 } ∧
    exec (.skm a) s = .next { s with p := if s.ar &&& s.br = d &&& s.br then s.p + 2 else s.p + 1 } ∧
    exec (.ska a) s = .next { s with p := if s.ar &&& d = 0 then s.p + 2 else s.p + 1 } ∧
    exec (.skb a) s = .next { s with p := if s.br &&& d = 0 then s.p + 2 else s.p + 1 } ∧
    encodeWord (.ske a) = encodeFields a.x false 0o17 a.i a.w ∧
    encodeWord (.skm a) = encodeFields a.x false 0o32 a.i a.w ∧
    encodeWord (.ska a) = encodeFields a.x false 0o34 a.i a.w ∧
    encodeWord (.skb a) = encodeFields a.x false 0o21 a.i a.w

/-- SKG skips if A is greater than the operand word as two's complement numbers, SKN if the operand word is negative (decision D14:
the comparison is signed, negative is the sign bit); nothing else changes. -/
def Obligations.SignedSkips : Prop :=
  ∀ (s : State) (a : Operand) (q d : Word), ea s a = .done q → contents s q = .ok d →
    exec (.skg a) s = .next { s with p := if s.ar.toInt > d.toInt then s.p + 2 else s.p + 1 } ∧
    exec (.skn a) s = .next { s with p := if d.toNat ≥ 2 ^ 23 then s.p + 2 else s.p + 1 }

/-- SKR stores D - 1 modulo 2^24 and skips if what it stored is negative (decisions D14, D15), if the store is allowed (decision
D7); no register but P changes and every byte outside the operand word reads as before. -/
def Obligations.ReduceMemoryAndSkip : Prop :=
  ∀ (s : State) (a : Operand) (q d : Word), ea s a = .done q → contents s q = .ok d →
    isAbs q = true ∨ q.toNat < s.bound.toNat →
    (∃ v : Word, (v.toNat : Int) = ((d.toNat : Int) - 1) % 2 ^ 24 ∧
      exec (.skr a) s = .next { s with
        mem := writeWord s.mem (location s q) v
        p := if v.toInt < 0 then s.p + 2 else s.p + 1 }) ∧
    ∀ v b, b < 3 * location s q ∨ 3 * location s q + 3 ≤ b →
      readByte (writeWord s.mem (location s q) v) b = readByte s.mem b

/-! ## Branches -/

/-- BRU sets P to the low 14 bits of Q, an absolute Q taken as relative (decision D38, log 27); nothing else changes. -/
def Obligations.BranchGoesToTheAddress : Prop :=
  ∀ (s : State) (a : Operand) (q : Word), ea s a = .done q →
    (∃ t : RelAddr, t.toNat = q.toNat % 2 ^ 14 ∧ exec (.bru a) s = .next { s with p := t }) ∧
    encodeWord (.bru a) = encodeFields a.x false 0o01 a.i a.w

/-- BRX adds 1 to X modulo 2^24 (decision D15) and, if bit 9 of the incremented X is 1 (decision D35), sets P to the low 14 bits of
the Q formed with the old X; else P steps. Nothing else changes. -/
def Obligations.IndexBranchCountsX : Prop :=
  ∀ (s : State) (a : Operand) (q : Word), ea s a = .done q →
    exec (.brx a) s = .next { s with
      xr := s.xr + 1
      p := if (s.xr + 1).getLsbD 14 then low14 q else s.p + 1 }

/-- BRM stores its own address at Q, if the store is allowed (decision D7; an absolute Q is stored at absolutely, decision D38), and
goes to the word after Q; every byte outside that word reads as before, no other register changes. -/
def Obligations.MarkPlaceStoresItsAddress : Prop :=
  ∀ (s : State) (a : Operand) (q : Word), ea s a = .done q → isAbs q = true ∨ q.toNat < s.bound.toNat →
    location s q < s.params.memWords →
    (∃ t : RelAddr, t.toNat = (q.toNat + 1) % 2 ^ 14 ∧
      exec (.brm a) s = .next { s with mem := writeWord s.mem (location s q) (zext24 s.p), p := t }) ∧
    ∀ b, b < 3 * location s q ∨ 3 * location s q + 3 ≤ b →
      readByte (writeWord s.mem (location s q) (zext24 s.p)) b = readByte s.mem b

/-- BRR sets P to the low 14 bits of the operand word plus 1; nothing else changes. -/
def Obligations.ReturnGoesAfterTheLink : Prop :=
  ∀ (s : State) (a : Operand) (q d : Word), ea s a = .done q → contents s q = .ok d →
    (∃ t : RelAddr, t.toNat = (d.toNat + 1) % 2 ^ 14 ∧ exec (.brr a) s = .next { s with p := t }) ∧
    encodeWord (.brr a) = encodeFields a.x false 0o20 a.i a.w

/-- A BRR through the link word that a BRM wrote returns to the word after the BRM (decisions D7, D38 as the model follows them). -/
def Obligations.ReturnAfterMarkPlace : Prop :=
  ∀ (s t : State) (a b : Operand) (q : Word), s.mem.wf → ea s a = .done q → exec (.brm a) s = .next t →
    trapTaken s t = none → ea t b = .done q → exec (.brr b) t = .next { t with p := s.p + 1 }

/-! ## SHIFT and RCH -/

/-- The five shift rows: the pair A, B as one 48-bit number, rotated by C mod 48, or shifted by C bringing in zeros or the sign of
A, for every count C from 0 to 63 in `W[5:0]`, which is not clipped (decision D16); nothing else changes but P. -/
def Obligations.ShiftRowsMoveThePair : Prop :=
  ∀ (s : State) (w : RelAddr) (c : Nat), c = w.toNat % 64 →
    (let ab : DoubleWord := (s.ar ++ s.br).rotateLeft (c % 48)
     exec (.lcy w) s = .next { s with ar := ab.extractLsb' 24 24, br := ab.extractLsb' 0 24, p := s.p + 1 }) ∧
    (let ab : DoubleWord := (s.ar ++ s.br) <<< c
     exec (.lsh w) s = .next { s with ar := ab.extractLsb' 24 24, br := ab.extractLsb' 0 24, p := s.p + 1 }) ∧
    (let ab : DoubleWord := (s.ar ++ s.br).sshiftRight c
     exec (.rsh w) s = .next { s with ar := ab.extractLsb' 24 24, br := ab.extractLsb' 0 24, p := s.p + 1 }) ∧
    (let ab : DoubleWord := (s.ar ++ s.br) >>> c
     exec (.lrsh w) s = .next { s with ar := ab.extractLsb' 24 24, br := ab.extractLsb' 0 24, p := s.p + 1 }) ∧
    (let ab : DoubleWord := (s.ar ++ s.br).rotateRight (c % 48)
     exec (.rcy w) s = .next { s with ar := ab.extractLsb' 24 24, br := ab.extractLsb' 0 24, p := s.p + 1 })

/-- SHIFT whose kind, from Q at run time, is 0 to 4 (decision D16: C places, C up to 63): the same five movements, with the count
from Q; nothing else changes but P. -/
def Obligations.ShiftKindComesFromTheAddress : Prop :=
  ∀ (s : State) (a : Operand) (q : Word), ea s a = .done q →
    (let kind : Nat := q.toNat / 2 ^ 8 % 8
     let c : Nat := q.toNat % 64
     kind ≤ 4 →
      ∃ ab : DoubleWord,
        ab = (if kind = 0 then (s.ar ++ s.br).rotateLeft (c % 48)
          else if kind = 1 then (s.ar ++ s.br) <<< c
          else if kind = 2 then (s.ar ++ s.br).sshiftRight c
          else if kind = 3 then (s.ar ++ s.br) >>> c
          else (s.ar ++ s.br).rotateRight (c % 48)) ∧
        exec (.shift a) s = .next { s with ar := ab.extractLsb' 24 24, br := ab.extractLsb' 0 24, p := s.p + 1 })

/-- A cycle by C the other way undoes a cycle by C. -/
def Obligations.RightCycleUndoesLeftCycle : Prop :=
  ∀ (c : Nat) (ab : DoubleWord),
    shiftTimes .rightCycle c (shiftTimes .leftCycle c ab) = ab ∧
    shiftTimes .leftCycle c (shiftTimes .rightCycle c ab) = ab

/-- The RCH rows that clear, copy and exchange the central registers: whole words, P steps, nothing else changes. -/
def Obligations.RegisterChangeRows : Prop :=
  ∀ (s : State) (w : RelAddr),
    exec (.clab w) s = .next { s with ar := 0, br := 0, p := s.p + 1 } ∧
    exec (.cla w) s = .next { s with ar := 0, p := s.p + 1 } ∧
    exec (.clb w) s = .next { s with br := 0, p := s.p + 1 } ∧
    exec (.clx w) s = .next { s with xr := 0, p := s.p + 1 } ∧
    exec (.cab w) s = .next { s with br := s.ar, p := s.p + 1 } ∧
    exec (.cba w) s = .next { s with ar := s.br, p := s.p + 1 } ∧
    exec (.xab w) s = .next { s with ar := s.br, br := s.ar, p := s.p + 1 } ∧
    exec (.cbx w) s = .next { s with xr := s.br, p := s.p + 1 } ∧
    exec (.cxb w) s = .next { s with br := s.xr, p := s.p + 1 } ∧
    exec (.xxb w) s = .next { s with br := s.xr, xr := s.br, p := s.p + 1 } ∧
    exec (.cxa w) s = .next { s with ar := s.xr, p := s.p + 1 } ∧
    exec (.cax w) s = .next { s with xr := s.ar, p := s.p + 1 } ∧
    exec (.xxa w) s = .next { s with ar := s.xr, xr := s.ar, p := s.p + 1 }

/-- XCA exchanges A with the control register that `W[1:0]` names, CCA copies it to A, all 24 bits (decision D5); CNA negates A
modulo 2^24 (decision D15). Writing IOCTL or MODE does nothing else (decision D27). Nothing else changes but P. -/
def Obligations.ControlRegisterRows : Prop :=
  ∀ (s : State) (w : RelAddr),
    (w.toNat % 4 = 0 → exec (.xca w) s = .next { s with ar := s.mode, mode := s.ar, p := s.p + 1 } ∧
      exec (.cca w) s = .next { s with ar := s.mode, p := s.p + 1 }) ∧
    (w.toNat % 4 = 1 → exec (.xca w) s = .next { s with ar := s.rel, rel := s.ar, p := s.p + 1 } ∧
      exec (.cca w) s = .next { s with ar := s.rel, p := s.p + 1 }) ∧
    (w.toNat % 4 = 2 → exec (.xca w) s = .next { s with ar := s.ioctl, ioctl := s.ar, p := s.p + 1 } ∧
      exec (.cca w) s = .next { s with ar := s.ioctl, p := s.p + 1 }) ∧
    (w.toNat % 4 = 3 → exec (.xca w) s = .next { s with ar := s.bound, bound := s.ar, p := s.p + 1 } ∧
      exec (.cca w) s = .next { s with ar := s.bound, p := s.p + 1 }) ∧
    (∃ v : Word, (v.toNat : Int) = (-(s.ar.toNat : Int)) % 2 ^ 24 ∧
      exec (.cna w) s = .next { s with ar := v, p := s.p + 1 })

/-- RCH does, for every Q, what the row of the sub-case `Q[11:8]` does with a direct address of the same low 14 bits: the sub-case
and the control register number are chosen at run time (log 11 for the rows; decisions D5, D15, D27 through them). It always
completes, and changes nothing but A, B, X, the control registers and P. -/
def Obligations.RegisterChangeComesFromTheAddress : Prop :=
  ∀ (s : State) (a : Operand) (q : Word), ea s a = .done q →
    exec (.rch a) s = exec (decodeWord (encodeMachine 0o16 (.direct (low14 q)))) s ∧
    ∃ t, exec (.rch a) s = .next t ∧
      t = { s with ar := t.ar, br := t.br, xr := t.xr, mode := t.mode, rel := t.rel, ioctl := t.ioctl, bound := t.bound,
                   p := s.p + 1 }

/-! ## NOP, EAX, EXU -/

/-- NOP changes nothing but P; EAX puts the low 14 bits of Q in the low 14 bits of X and keeps the others. -/
def Obligations.NoOperationAndEffectiveAddressToX : Prop :=
  ∀ (s : State) (a : Operand) (q : Word), ea s a = .done q →
    exec (.nop a) s = .next { s with p := s.p + 1 } ∧
    (∃ v : Word, v.toNat = q.toNat % 2 ^ 14 + s.xr.toNat / 2 ^ 14 * 2 ^ 14 ∧
      exec (.eax a) s = .next { s with xr := v, p := s.p + 1 }) ∧
    encodeWord (.nop a) = encodeFields a.x false 0o05 a.i a.w ∧
    encodeWord (.eax a) = encodeFields a.x false 0o40 a.i a.w

/-- EXU executes the operand word exactly as if it had been fetched from the location of the EXU, at every depth of nesting
(decision D13): the model's bound on the depth cuts off no chain that ends (log 8). -/
def Obligations.ExecuteRunsTheOperandWord : Prop :=
  ∀ (s : State) (a : Operand) (t : Word), operandWord s a = .done t → exec (.exu a) s = exec (decodeWord t) s

/-- EXU completes with the ending of the word it executes, relative to the EXU (decision D13): a LDA, a SKE, a BRU, a BRM that
stores the address of the EXU (decision D7), and a LDA through a second EXU. -/
def Obligations.ExecuteCompletes : Prop :=
  ∀ (s : State) (a b : Operand) (t q : Word), operandWord s a = .done t → ea s b = .done q →
    (∀ d, decodeWord t = .lda b → contents s q = .ok d → exec (.exu a) s = .next { s with ar := d, p := s.p + 1 }) ∧
    (∀ d, decodeWord t = .ske b → contents s q = .ok d →
      exec (.exu a) s = .next { s with p := if s.ar = d then s.p + 2 else s.p + 1 }) ∧
    (decodeWord t = .bru b → exec (.exu a) s = .next { s with p := low14 q }) ∧
    (decodeWord t = .brm b → isAbs q = true ∨ q.toNat < s.bound.toNat → location s q < s.params.memWords →
      exec (.exu a) s = .next { s with mem := writeWord s.mem (location s q) (zext24 s.p), p := low14 (q + 1) }) ∧
    (∀ c u d, operandWord s c = .done u → decodeWord t = .exu c → decodeWord u = .lda b → contents s q = .ok d →
      exec (.exu a) s = .next { s with ar := d, p := s.p + 1 })

/-- A chain of EXU words that never ends hangs the machine, with nothing else changed (decisions D13, D33, log 8). -/
def Obligations.EndlessExecuteChainHangs : Prop :=
  ∀ (s : State) (f : Nat → Operand),
    (∀ k, ∃ t, operandWord s (f k) = .done t ∧ decodeWord t = .exu (f (k + 1))) →
    exec (.exu (f 0)) s = .next { s with hung := true }

/-! ## Input/output, UPS, pops -/

/-- UPOT emits the device address in A and the datum in B; UPIN puts the drawn value in B and emits it. The drawn value is free: the
statement holds whatever `Config.deviceInput` is (decision D26, log 5, log 6). Nothing else changes but P and the draw count. -/
def Obligations.OutputAndInput : Prop :=
  ∀ (s : State) (a : Operand) (q : Word), ea s a = .done q →
    exec (.upot a) s = .next { s with events := .output s.ar s.br :: s.events, p := s.p + 1 } ∧
    exec (.upin a) s = .next { s with
      br := Config.deviceInput s.draws s.ar
      draws := s.draws + 1
      events := .input s.ar (Config.deviceInput s.draws s.ar) :: s.events
      p := s.p + 1 }

/-- The rows of UPS (decision D25): STR emits the 8-bit parameter; PRO saves schedule mode in bit 3 of MODE, keeps MODE's other
bits, leaves schedule mode and sets the protects the parameter names; UPR clears the protects and restores schedule mode from bit
3 of MODE. Events are the model's record (log 6). Nothing else changes but P. -/
def Obligations.SignalRows : Prop :=
  ∀ (s : State) (w : RelAddr) (m : BitVec 8), m.toNat = w.toNat % 256 →
    exec (.str w) s = .next { s with events := .strobe m :: s.events, p := s.p + 1 } ∧
    (∃ mode : Word, mode.getLsbD 20 = s.sched ∧ (∀ k, k ≠ 20 → mode.getLsbD k = s.mode.getLsbD k) ∧
      exec (.pro w) s = .next { s with
        mode := mode, sched := false, prot := s.prot ||| m, events := .protect m :: s.events, p := s.p + 1 }) ∧
    exec (.upr w) s = .next { s with
      prot := 0, sched := s.mode.getLsbD 20, events := .unprotect :: s.events, p := s.p + 1 }

/-- UPR after PRO restores schedule mode, and MODE bit 3 holds what it was (decision D25). -/
def Obligations.UnprotectRestoresScheduleMode : Prop :=
  ∀ (s t : State) (w v : RelAddr), exec (.pro w) s = .next t →
    ∃ u, exec (.upr v) t = .next u ∧ u.sched = s.sched ∧ u.prot = 0 ∧ u.mode = t.mode

/-- UPS does what the row of the sub-case `Q[9:8]` does with a direct address of the same low 14 bits; with sub-case 0, 1 or 2 it
completes (log 11 for the rows; decision D25 through them), and changes nothing but MODE, SCHED, PROT, the events and P. -/
def Obligations.SignalComesFromTheAddress : Prop :=
  ∀ (s : State) (a : Operand) (q : Word), ea s a = .done q →
    exec (.ups a) s = exec (decodeWord (encodeMachine 0o41 (.direct (low14 q)))) s ∧
    (q.toNat / 2 ^ 8 % 4 ≠ 3 → ∃ t, exec (.ups a) s = .next t ∧
      t = { s with mode := t.mode, sched := t.sched, prot := t.prot, events := t.events, p := s.p + 1 })

/-- UPS with sub-case 3 is refused, in its row and where Q names it at run time: it is never a no-op and never a trap. Its word with
X = I = 0 and parameter m is 04101400B + m. -/
def Obligations.UndefinedSignalIsRefused : Prop :=
  (∀ (s : State) (w : RelAddr), exec (.upsUndefined w) s = .refused .undefinedSignal) ∧
  (∀ (s : State) (a : Operand) (q : Word), ea s a = .done q → q.toNat / 2 ^ 8 % 4 = 3 →
    exec (.ups a) s = .refused .undefinedSignal) ∧
  ∀ m : Nat, m < 256 → decodeWord (BitVec.ofNat 24 (0o04101400 + m)) = .upsUndefined (BitVec.ofNat 14 (0o1400 + m))

/-- A pop stores its own address, marked with POP_MARK, at relative 0 and goes to 100B + OP, if 0 < BOUND (decisions D7, D10): for
both values of POP_MARK (decision D9). Every byte outside that word reads as before; no other register changes. -/
def Obligations.PopStoresItsLinkAndVectors : Prop :=
  ∀ (s : State) (op : BitVec 6) (a : Operand), 0 < s.bound.toNat → s.rel.toNat < s.params.memWords →
    (∃ t : RelAddr, t.toNat = 0o100 + op.toNat ∧
      exec (.pop op a) s = .next { s with
        mem := writeWord s.mem s.rel.toNat (zext24 s.p ||| (match s.params.popMark with
          | .printed => 0o4000#24
          | .indirect => 0o40000#24))
        p := t }) ∧
    ∀ v b, b < 3 * s.rel.toNat ∨ 3 * s.rel.toNat + 3 ≤ b → readByte (writeWord s.mem s.rel.toNat v) b = readByte s.mem b

/-! ## Traps -/

/-- What a trap sequence leaves (decisions D17, D18, D19): REL and BOUND as reloaded, IOCTL 0, P 3, the un-advanced P in the word at
relative 2 under the new REL and every other byte of memory as before, one event; every other register as it was. -/
def Obligations.TrapSequenceLeaves : Prop :=
  ∀ (c : Cause) (s : State), s.trapReady →
    takeTrap c s = .next (s.trapped c) ∧
    ∀ t, takeTrap c s = .next t →
      t.rel = readWord s.mem s.params.relSrc ∧ t.bound = readWord s.mem s.params.boundSrc ∧ t.ioctl = 0 ∧ t.p = 3 ∧
      t.events = .trap c :: s.events ∧
      (s.mem.wf → readWord t.mem (2#24 + t.rel).toNat = zext24 s.p) ∧
      (∀ b, b < 3 * (2#24 + t.rel).toNat ∨ 3 * (2#24 + t.rel).toNat + 3 ≤ b → readByte t.mem b = readByte s.mem b) ∧
      t.ar = s.ar ∧ t.br = s.br ∧ t.xr = s.xr ∧ t.mode = s.mode ∧ t.sched = s.sched ∧ t.prot = s.prot ∧
      t.params = s.params ∧ t.draws = s.draws ∧ t.arrivals = s.arrivals ∧ t.hung = s.hung

/-- HLT, the illegal operation codes (decision D8) and SHIFT with kind 5, 6 or 7 take the trap (decisions D17, D18), after Q is
computed (decision D11). -/
def Obligations.TrapInstructionsTakeTheTrap : Prop :=
  ∀ s : State, s.trapReady →
    (∀ (a : Operand) (q : Word), ea s a = .done q →
      exec (.hlt a) s = .next (s.trapped .halt) ∧
      (∀ op, exec (.illegal60 op a) s = .next (s.trapped .illegalInstruction) ∧
        exec (.illegal50 op a) s = .next (s.trapped .illegalInstruction) ∧
        exec (.illegal44 op a) s = .next (s.trapped .illegalInstruction) ∧
        exec (.illegal42 op a) s = .next (s.trapped .illegalInstruction)) ∧
      (5 ≤ q.toNat / 2 ^ 8 % 8 → exec (.shift a) s = .next (s.trapped .illegalShift))) ∧
    ∀ w : RelAddr, exec (.shiftTrap5 w) s = .next (s.trapped .illegalShift) ∧
      exec (.shiftTrap6 w) s = .next (s.trapped .illegalShift)

/-- A relative store at Q with not Q < BOUND, unsigned (decision D7), traps with nothing written and no register changed by the
instruction: STA, STB, STX, BRM; XMA, MIN, ADM, SKR, which read first; a pop if BOUND is 0 (decisions D17, D18 for the trap). -/
def Obligations.StoreProtectionTraps : Prop :=
  ∀ s : State, s.trapReady →
    (∀ (a : Operand) (q : Word), ea s a = .done q → isAbs q = false → s.bound.toNat ≤ q.toNat →
      exec (.sta a) s = .next (s.trapped .storeProtect) ∧ exec (.stb a) s = .next (s.trapped .storeProtect) ∧
      exec (.stx a) s = .next (s.trapped .storeProtect) ∧ exec (.brm a) s = .next (s.trapped .storeProtect) ∧
      (location s q < s.params.memWords →
        exec (.xma a) s = .next (s.trapped .storeProtect) ∧ exec (.min a) s = .next (s.trapped .storeProtect) ∧
        exec (.adm a) s = .next (s.trapped .storeProtect) ∧ exec (.skr a) s = .next (s.trapped .storeProtect))) ∧
    (s.bound = 0 → ∀ op a, exec (.pop op a) s = .next (s.trapped .storeProtect))

/-- Traps are precise: whatever instruction traps, under EXU or not, the state it leaves is the trap sequence of the state the
instruction began in (decisions D13, D17, D18). -/
def Obligations.TrapsArePrecise : Prop :=
  ∀ (i : Instr) (s t : State) (c : Cause), exec i s = .next t → trapTaken s t = some c → t = s.trapped c

/-- The instructions that can never raise a trap raise none, and SHIFT raises none with kind 0 to 4; EXU does, and so raises,
whatever the word it executes does at the location of the EXU (decision D13, log 20; log 8 for the depth of nesting). -/
def Obligations.InstructionsThatNeverTrap : Prop :=
  (∀ (i : Instr) (s t : State), i.neverTraps = true → exec i s = .next t → trapTaken s t = none) ∧
  (∀ (a : Operand) (q : Word) (s t : State), ea s a = .done q → q.toNat / 2 ^ 8 % 8 ≤ 4 → exec (.shift a) s = .next t →
    trapTaken s t = none) ∧
  (∀ (a : Operand) (w : Word) (s : State), operandWord s a = .done w → exec (.exu a) s = exec (decodeWord w) s)

/-- The only stops: a reference to a location that does not exist (decision D6, log 9), and UPS sub-case 3 (log 10), in its row, in
UPS, or executed by EXU. -/
def Obligations.OnlyStops : Prop :=
  (∀ (i : Instr) (s : State) (e : Fault), exec i s = .fault e → ∃ loc, s.params.memWords ≤ loc ∧ e = .absentLocation loc) ∧
  (∀ (i : Instr) (s : State) (r : Refusal), exec i s = .refused r →
    r = .undefinedSignal ∧ ((∃ a, i = .ups a) ∨ (∃ w, i = .upsUndefined w) ∨ ∃ a, i = .exu a)) ∧
  (∀ (s : State) (e : Fault), step s = .fault e → ∃ loc, s.params.memWords ≤ loc ∧ e = .absentLocation loc)

/-! ## Whole-machine rules -/

/-- How P is left by an instruction that neither traps nor hangs (EXU takes the ending of the word it executes): stepped by 1
unless the instruction assigns P or skips, and a skip steps it by 2, modulo 2^14. -/
def Obligations.InstructionsEndByStepping : Prop :=
  ∀ (i : Instr) (s t : State), exec i s = .next t → trapTaken s t = none →
    (∀ a, i.addressPart = some a → ea s a ≠ .endless) → i.isExecute = false → i.assignsP = false →
    t.p = s.p + 1 ∨ (i.maySkip = true ∧ t.p = s.p + 2)

/-- A, B and X are written only by the instructions the spec's table names. -/
def Obligations.CentralRegistersWrittenOnlyBy : Prop :=
  ∀ (i : Instr) (s t : State), exec i s = .next t →
    (t.ar ≠ s.ar → i.mayWriteA = true) ∧ (t.br ≠ s.br → i.mayWriteB = true) ∧ (t.xr ≠ s.xr → i.mayWriteX = true)

/-- REL, BOUND and IOCTL are written only by XCA (or its parent RCH, or EXU) and by a trap; MODE only by XCA and PRO; SCHED and PROT
only by PRO and UPR; nothing writes the open parameters or the outside world's pending moves (log 4, log 7). -/
def Obligations.ControlRegistersWrittenOnlyBy : Prop :=
  ∀ (i : Instr) (s t : State), exec i s = .next t →
    (t.rel ≠ s.rel ∨ t.bound ≠ s.bound ∨ t.ioctl ≠ s.ioctl →
      (∃ c, trapTaken s t = some c) ∨ (∃ w, i = .xca w) ∨ (∃ a, i = .rch a) ∨ ∃ a, i = .exu a) ∧
    (t.mode ≠ s.mode → (∃ w, i = .xca w) ∨ (∃ a, i = .rch a) ∨ (∃ w, i = .pro w) ∨ (∃ a, i = .ups a) ∨ ∃ a, i = .exu a) ∧
    (t.sched ≠ s.sched ∨ t.prot ≠ s.prot →
      (∃ w, i = .pro w) ∨ (∃ w, i = .upr w) ∨ (∃ a, i = .ups a) ∨ ∃ a, i = .exu a) ∧
    t.params = s.params ∧ t.arrivals = s.arrivals

/-- Memory changes only where an instruction stores: an instruction whose rule stores nothing leaves every byte as it was, unless
it traps; one that stores at Q leaves every byte outside the word at Q as it was; a pop every byte outside relative 0. -/
def Obligations.MemoryChangesOnlyWhereStored : Prop :=
  ∀ (i : Instr) (s t : State), exec i s = .next t → trapTaken s t = none →
    (i.storesMemory = false → i.isExecute = false → ∀ b, readByte t.mem b = readByte s.mem b) ∧
    (i.storesMemory = true → ∀ a q, i.addressPart = some a → ea s a = .done q →
      ∀ b, b < 3 * location s q ∨ 3 * location s q + 3 ≤ b → readByte t.mem b = readByte s.mem b) ∧
    (∀ op a, i = .pop op a →
      ∀ b, b < 3 * s.rel.toNat ∨ 3 * s.rel.toNat + 3 ≤ b → readByte t.mem b = readByte s.mem b)

/-- A step runs the decoded instruction: where no instruction hangs and the outside world makes no move before it (log 7, log 8),
and the bytes of the word at P decode to a well-formed instruction, step is exec of it at the same state, with the outside world's
leave to run one instruction used up. A word placed by withFetchWord in canonical memory is the one that runs, and after it the
outside world does what it would have done before it (log 13). -/
def Obligations.StepRunsTheDecodedInstruction : Prop :=
  (∀ (s : State) (i : Instr) (loc : Nat), s.hung = false → s.nextMove = none → loc = (s.p.toNat + s.rel.toNat) % 2 ^ 24 →
    loc < s.params.memWords → i.wellFormed = true →
    decode [readByte s.mem (3 * loc), readByte s.mem (3 * loc + 1), readByte s.mem (3 * loc + 2)] = .ok (i, []) →
    step s = exec i { s with arrivals := s.arrivals.tail }) ∧
  (∀ (s : State) (w : Word), s.mem.wf → (s.p.toNat + s.rel.toNat) % 2 ^ 24 < s.params.memWords →
    step (s.withFetchWord 24 w.toNat) = exec (decodeWord w) { s.withFetchWord 24 w.toNat with arrivals := s.arrivals })

/-- A move that the outside world makes before the next instruction is one step (decision D20, log 7): Start is the trap sequence
with the P of the instruction that would have been executed next; the others change what they name and nothing else. -/
def Obligations.OutsideMovesComeBetweenInstructions : Prop :=
  ∀ (s : State) (m : Arrival) (rest : List (Option Arrival)), s.hung = false → s.arrivals = some m :: rest →
    (m = .start → s.trapReady → step s = .next { s.trapped .start with arrivals := rest }) ∧
    (∀ loc v, m = .write loc v → loc < s.params.memWords →
      step s = .next { s with mem := writeWord s.mem loc v, arrivals := rest }) ∧
    (∀ on, m = .schedule on → step s = .next { s with sched := on, arrivals := rest }) ∧
    (∀ set, m = .protects set → step s = .next { s with prot := set, arrivals := rest })

/-- The outside world moves between any two instructions (decision D20, log 7): after whatever instruction the next step runs, the
move is made in the state that instruction leaves. So a Start that comes as an instruction traps is taken after its trap sequence,
and saves P = 3; and of two PROs between which the outside world turns schedule mode on, the second saves a 1 in bit 3 of MODE
(decision D25). -/
def Obligations.OutsideMovesFollowAnyInstruction : Prop :=
  ∀ (s : State) (rest : List (Option Arrival)) (w : Word), s.hung = false → fetch s = .ok w →
    (∀ m t, s.arrivals = none :: some m :: rest → exec (decodeWord w) { s with arrivals := some m :: rest } = .next t →
      t.hung = false →
      t.arrivals = some m :: rest ∧ Sys2Proof.core.run 2 s = takeArrival m { t with arrivals := rest }) ∧
    (∀ c t, s.arrivals = none :: some .start :: rest → exec (decodeWord w) { s with arrivals := some .start :: rest } = .next t →
      trapTaken s t = some c → t.trapReady →
      ∃ u, Sys2Proof.core.run 2 s = .next u ∧ u.p = 3 ∧ u.events = .trap .start :: .trap c :: s.events ∧ u.arrivals = rest ∧
        (s.mem.wf → readWord u.mem (2#24 + u.rel).toNat = 3)) ∧
    (∀ a b v, s.arrivals = none :: some (.schedule true) :: none :: rest → decodeWord w = .pro a →
      fetch { s with p := s.p + 1 } = .ok v → decodeWord v = .pro b →
      ∃ u, Sys2Proof.core.run 3 s = .next u ∧ u.mode.getLsbD 20 = true ∧ u.sched = false ∧ u.p = s.p + 2 ∧ u.arrivals = rest)

/-- Reset is the trap sequence with cause Start, from the state before the first Start; it leaves P = 3, IOCTL = 0, and REL and
BOUND as the words at their source locations, whatever the outside world does after it. The values of that earlier state, of the
open parameters, and that in State.reset the outside world makes no further move, are the model's choice (log 2, log 3, log 4,
log 7, log 13). -/
def Obligations.ResetIsTheStartSequence : Prop :=
  State.reset = State.launched [] ∧
  (∀ world, takeTrap .start { State.powerOn with arrivals := world } = .next (State.launched world)) ∧
  State.reset.p = 3 ∧ State.reset.ioctl = 0 ∧
  State.reset.rel = readWord State.powerOn.mem State.powerOn.params.relSrc ∧
  State.reset.bound = readWord State.powerOn.mem State.powerOn.params.boundSrc

/-- The invariant holds at reset (with the parameters log 4 names), whatever the outside world does after it (log 7). -/
def Obligations.ResetMeetsTheInvariant : Prop := State.reset.inv ∧ ∀ world, (State.launched world).inv

/-- Every step keeps the invariant: the open parameters meet their constraints, memory is in its canonical form and lists only
words that exist. No step changes the parameters (log 2, log 4). -/
def Obligations.StepKeepsTheInvariant : Prop :=
  ∀ s t : State, s.inv → step s = .next t → t.inv ∧ t.params = s.params

/-- The end of a run by the spec's convention (decision D29): a run whose next instruction is HLT ends there, with the trap
sequence completed and P = 3. -/
def Obligations.HaltEndsTheRun : Prop :=
  ∀ (s : State) (a : Operand) (q w : Word) (n : Nat), s.hung = false → s.nextMove = none → fetch s = .ok w →
    decodeWord w = .hlt a → ea s a = .done q → s.trapReady →
    runToTrap (n + 1) s = .trapped .halt { s.trapped .halt with arrivals := s.arrivals.tail } ∧ (s.trapped .halt).p = 3
end

