-- ==== Sys2Proof/Laws/Memory.lean ====
section
/-! SUPPORT. Memory: a read after a write, and the canonical form that every write keeps. -/

namespace Sys2Proof.Machine

/-- The canonical form of a tail. -/
theorem Memory.wf_tail {c : Host.Cell} {m : Memory} (h : Memory.wf (c :: m)) : Memory.wf m :=
  ⟨h.1.of_cons, fun d hd => h.2 d (List.mem_cons_of_mem c hd)⟩

/-- An address below every listed one reads as unlisted. -/
theorem readByte_unlisted {m : Memory} {a : Nat} (h : ∀ c ∈ m, c.1 ≠ a) : readByte m a = unlistedByte := by
  induction m with
  | nil => rfl
  | cons c m ih =>
    have hc : c.1 ≠ a := h c (List.mem_cons_self ..)
    simp only [readByte, if_neg hc]
    exact ih fun d hd => h d (List.mem_cons_of_mem c hd)

/-- A write leaves every other byte alone. -/
theorem readByte_writeByte_other (m : Memory) {a a' : Nat} (b : Byte) (h : a' ≠ a) :
    readByte (writeByte m a b) a' = readByte m a' := by
  induction m with
  | nil =>
    simp only [writeByte]
    split
    · rfl
    · simp [readByte, Ne.symm h]
  | cons c m ih =>
    obtain ⟨k, c⟩ := c
    simp only [writeByte]
    split
    · simp only [readByte, ih]
    · split
      · next hk =>
        subst hk
        split <;> simp [readByte, Ne.symm h]
      · split
        · rfl
        · simp [readByte, Ne.symm h]

/-- In canonical memory the byte written is the byte read back. -/
theorem readByte_writeByte_same {m : Memory} (hm : m.wf) (a : Nat) (b : Byte) :
    readByte (writeByte m a b) a = b := by
  induction m with
  | nil =>
    simp only [writeByte]
    split
    · next hb => simp [readByte, hb]
    · simp [readByte]
  | cons c m ih =>
    obtain ⟨k, c⟩ := c
    have above : ∀ d ∈ m, k < d.1 := (List.pairwise_cons.mp hm.1).1
    simp only [writeByte]
    split
    · next hk => simp only [readByte, if_neg (Nat.ne_of_lt hk), ih (Memory.wf_tail hm)]
    · split
      · next hk =>
        subst hk
        split
        · next hb => exact (readByte_unlisted fun d hd => Nat.ne_of_gt (above d hd)).trans hb.symm
        · simp [readByte]
      · split
        · next hlt hne hb =>
          simp only [readByte, if_neg hne]
          refine (readByte_unlisted fun d hd => ?_).trans hb.symm
          have := above d hd
          omega
        · simp [readByte]

/-- Every entry of written memory is the new one or an old one. -/
theorem mem_writeByte {m : Memory} {a : Nat} {b : Byte} {c : Host.Cell} (h : c ∈ writeByte m a b) :
    (c = (a, b) ∧ b ≠ unlistedByte) ∨ c ∈ m := by
  induction m with
  | nil =>
    simp only [writeByte] at h
    split at h
    · simp at h
    · next hb => exact .inl ⟨by simpa using h, hb⟩
  | cons d m ih =>
    obtain ⟨k, d⟩ := d
    simp only [writeByte] at h
    split at h
    · rcases List.mem_cons.mp h with h | h
      · exact .inr (List.mem_cons.mpr (.inl h))
      · exact (ih h).imp_right (List.mem_cons_of_mem _)
    · split at h
      · split at h
        · exact .inr (List.mem_cons_of_mem _ h)
        · next hb =>
          rcases List.mem_cons.mp h with h | h
          · exact .inl ⟨h, hb⟩
          · exact .inr (List.mem_cons_of_mem _ h)
      · split at h
        · exact .inr h
        · next hb =>
          rcases List.mem_cons.mp h with h | h
          · exact .inl ⟨h, hb⟩
          · exact .inr h

/-- A byte write keeps the canonical form. -/
theorem writeByte_wf {m : Memory} (hm : m.wf) (a : Nat) (b : Byte) : (writeByte m a b).wf := by
  refine ⟨?_, fun c hc => ?_⟩
  · induction m with
    | nil =>
      simp only [writeByte]
      split <;> simp
    | cons d m ih =>
      obtain ⟨k, d⟩ := d
      obtain ⟨above, rising⟩ := List.pairwise_cons.mp hm.1
      simp only [writeByte]
      split
      · next hk =>
        refine List.pairwise_cons.mpr ⟨fun e he => ?_, ih (Memory.wf_tail hm)⟩
        rcases mem_writeByte he with ⟨rfl, _⟩ | he
        · exact hk
        · exact above e he
      · split
        · next hk =>
          subst hk
          split
          · exact rising
          · exact List.pairwise_cons.mpr ⟨above, rising⟩
        · split
          · exact hm.1
          · refine List.pairwise_cons.mpr ⟨fun e he => ?_, hm.1⟩
            rcases List.mem_cons.mp he with rfl | he
            · simp only; omega
            · have := above e he
              simp only; omega
  · rcases mem_writeByte hc with ⟨rfl, hb⟩ | hc
    · exact hb
    · exact hm.2 c hc

/-- A word write keeps the canonical form: with `writeByte_wf`, every memory operation does. -/
theorem writeWord_wf {m : Memory} (hm : m.wf) (loc : Nat) (v : Word) : (writeWord m loc v).wf :=
  writeByte_wf (writeByte_wf (writeByte_wf hm _ _) _ _) _ _

/-- A word write to a word that exists lists only words that exist. -/
theorem writeWord_inside {m : Memory} {words loc : Nat} (hm : m.inside words) (h : loc < words) (v : Word) :
    (writeWord m loc v).inside words := by
  intro c hc
  rcases mem_writeByte hc with ⟨rfl, _⟩ | hc
  · simp only; omega
  · rcases mem_writeByte hc with ⟨rfl, _⟩ | hc
    · simp only; omega
    · rcases mem_writeByte hc with ⟨rfl, _⟩ | hc
      · simp only; omega
      · exact hm c hc

/-- The bytes of a word make the word (20_memory.md R58). -/
theorem wordOfBytes_byteOfWord (v : Word) : wordOfBytes (byteOfWord v 0) (byteOfWord v 1) (byteOfWord v 2) = v := by
  apply BitVec.eq_of_getLsbD_eq
  intro i hi
  simp only [wordOfBytes, byteOfWord, BitVec.getLsbD_append, BitVec.getLsbD_extractLsb']
  by_cases h1 : i < 8
  · simp [h1]
  · by_cases h2 : i < 16
    · have : i - 8 < 8 := by omega
      simp [h1, this, show 8 + (i - 8) = i by omega]
    · have : ¬ i - 8 < 8 := by omega
      have h4 : i - 16 < 8 := by omega
      simp [h1, this, h4, show i - 8 - 8 = i - 16 by omega, show 16 + (i - 16) = i by omega]

/-- Memory of the state after reset has the canonical form. -/
theorem reset_mem_wf : State.reset.mem.wf := by decide

end Sys2Proof.Machine
end

