-- ==== Sys2Proof/Laws/State.lean ====
section
/-! SUPPORT. Small lemmas: what each named update of State does to each field. -/

namespace Sys2Proof.Machine

@[simp] theorem emit_ar (s : State) (e : Event) : (s.emit e).ar = s.ar := rfl
@[simp] theorem emit_br (s : State) (e : Event) : (s.emit e).br = s.br := rfl
@[simp] theorem emit_xr (s : State) (e : Event) : (s.emit e).xr = s.xr := rfl
@[simp] theorem emit_p (s : State) (e : Event) : (s.emit e).p = s.p := rfl
@[simp] theorem emit_rel (s : State) (e : Event) : (s.emit e).rel = s.rel := rfl
@[simp] theorem emit_bound (s : State) (e : Event) : (s.emit e).bound = s.bound := rfl
@[simp] theorem emit_ioctl (s : State) (e : Event) : (s.emit e).ioctl = s.ioctl := rfl
@[simp] theorem emit_mode (s : State) (e : Event) : (s.emit e).mode = s.mode := rfl
@[simp] theorem emit_mem (s : State) (e : Event) : (s.emit e).mem = s.mem := rfl
@[simp] theorem emit_sched (s : State) (e : Event) : (s.emit e).sched = s.sched := rfl
@[simp] theorem emit_prot (s : State) (e : Event) : (s.emit e).prot = s.prot := rfl
@[simp] theorem emit_params (s : State) (e : Event) : (s.emit e).params = s.params := rfl
@[simp] theorem emit_draws (s : State) (e : Event) : (s.emit e).draws = s.draws := rfl
@[simp] theorem emit_arrivals (s : State) (e : Event) : (s.emit e).arrivals = s.arrivals := rfl
@[simp] theorem emit_events (s : State) (e : Event) : (s.emit e).events = e :: s.events := rfl
@[simp] theorem emit_hung (s : State) (e : Event) : (s.emit e).hung = s.hung := rfl

@[simp] theorem endWith_ar (s : State) (e : Ending) : (s.endWith e).ar = s.ar := rfl
@[simp] theorem endWith_br (s : State) (e : Ending) : (s.endWith e).br = s.br := rfl
@[simp] theorem endWith_xr (s : State) (e : Ending) : (s.endWith e).xr = s.xr := rfl
@[simp] theorem endWith_p (s : State) (e : Ending) : (s.endWith e).p = e.pc s.p := rfl
@[simp] theorem endWith_rel (s : State) (e : Ending) : (s.endWith e).rel = s.rel := rfl
@[simp] theorem endWith_bound (s : State) (e : Ending) : (s.endWith e).bound = s.bound := rfl
@[simp] theorem endWith_ioctl (s : State) (e : Ending) : (s.endWith e).ioctl = s.ioctl := rfl
@[simp] theorem endWith_mode (s : State) (e : Ending) : (s.endWith e).mode = s.mode := rfl
@[simp] theorem endWith_mem (s : State) (e : Ending) : (s.endWith e).mem = s.mem := rfl
@[simp] theorem endWith_sched (s : State) (e : Ending) : (s.endWith e).sched = s.sched := rfl
@[simp] theorem endWith_prot (s : State) (e : Ending) : (s.endWith e).prot = s.prot := rfl
@[simp] theorem endWith_params (s : State) (e : Ending) : (s.endWith e).params = s.params := rfl
@[simp] theorem endWith_draws (s : State) (e : Ending) : (s.endWith e).draws = s.draws := rfl
@[simp] theorem endWith_arrivals (s : State) (e : Ending) : (s.endWith e).arrivals = s.arrivals := rfl
@[simp] theorem endWith_events (s : State) (e : Ending) : (s.endWith e).events = s.events := rfl
@[simp] theorem endWith_hung (s : State) (e : Ending) : (s.endWith e).hung = s.hung := rfl

@[simp] theorem hang_ar (s : State) : (s.hang).ar = s.ar := rfl
@[simp] theorem hang_br (s : State) : (s.hang).br = s.br := rfl
@[simp] theorem hang_xr (s : State) : (s.hang).xr = s.xr := rfl
@[simp] theorem hang_p (s : State) : (s.hang).p = s.p := rfl
@[simp] theorem hang_rel (s : State) : (s.hang).rel = s.rel := rfl
@[simp] theorem hang_bound (s : State) : (s.hang).bound = s.bound := rfl
@[simp] theorem hang_ioctl (s : State) : (s.hang).ioctl = s.ioctl := rfl
@[simp] theorem hang_mode (s : State) : (s.hang).mode = s.mode := rfl
@[simp] theorem hang_mem (s : State) : (s.hang).mem = s.mem := rfl
@[simp] theorem hang_sched (s : State) : (s.hang).sched = s.sched := rfl
@[simp] theorem hang_prot (s : State) : (s.hang).prot = s.prot := rfl
@[simp] theorem hang_params (s : State) : (s.hang).params = s.params := rfl
@[simp] theorem hang_draws (s : State) : (s.hang).draws = s.draws := rfl
@[simp] theorem hang_arrivals (s : State) : (s.hang).arrivals = s.arrivals := rfl
@[simp] theorem hang_events (s : State) : (s.hang).events = s.events := rfl
@[simp] theorem hang_hung (s : State) : (s.hang).hung = true := rfl

@[simp] theorem setPair_ar (s : State) (ab : DoubleWord) : (s.setPair ab).ar = ab.extractLsb' 24 24 := rfl
@[simp] theorem setPair_br (s : State) (ab : DoubleWord) : (s.setPair ab).br = ab.extractLsb' 0 24 := rfl
@[simp] theorem setPair_xr (s : State) (ab : DoubleWord) : (s.setPair ab).xr = s.xr := rfl
@[simp] theorem setPair_p (s : State) (ab : DoubleWord) : (s.setPair ab).p = s.p := rfl
@[simp] theorem setPair_rel (s : State) (ab : DoubleWord) : (s.setPair ab).rel = s.rel := rfl
@[simp] theorem setPair_bound (s : State) (ab : DoubleWord) : (s.setPair ab).bound = s.bound := rfl
@[simp] theorem setPair_ioctl (s : State) (ab : DoubleWord) : (s.setPair ab).ioctl = s.ioctl := rfl
@[simp] theorem setPair_mode (s : State) (ab : DoubleWord) : (s.setPair ab).mode = s.mode := rfl
@[simp] theorem setPair_mem (s : State) (ab : DoubleWord) : (s.setPair ab).mem = s.mem := rfl
@[simp] theorem setPair_sched (s : State) (ab : DoubleWord) : (s.setPair ab).sched = s.sched := rfl
@[simp] theorem setPair_prot (s : State) (ab : DoubleWord) : (s.setPair ab).prot = s.prot := rfl
@[simp] theorem setPair_params (s : State) (ab : DoubleWord) : (s.setPair ab).params = s.params := rfl
@[simp] theorem setPair_draws (s : State) (ab : DoubleWord) : (s.setPair ab).draws = s.draws := rfl
@[simp] theorem setPair_arrivals (s : State) (ab : DoubleWord) : (s.setPair ab).arrivals = s.arrivals := rfl
@[simp] theorem setPair_events (s : State) (ab : DoubleWord) : (s.setPair ab).events = s.events := rfl
@[simp] theorem setPair_hung (s : State) (ab : DoubleWord) : (s.setPair ab).hung = s.hung := rfl

@[simp] theorem pastMove_ar (s : State) : s.pastMove.ar = s.ar := rfl
@[simp] theorem pastMove_br (s : State) : s.pastMove.br = s.br := rfl
@[simp] theorem pastMove_xr (s : State) : s.pastMove.xr = s.xr := rfl
@[simp] theorem pastMove_p (s : State) : s.pastMove.p = s.p := rfl
@[simp] theorem pastMove_rel (s : State) : s.pastMove.rel = s.rel := rfl
@[simp] theorem pastMove_bound (s : State) : s.pastMove.bound = s.bound := rfl
@[simp] theorem pastMove_ioctl (s : State) : s.pastMove.ioctl = s.ioctl := rfl
@[simp] theorem pastMove_mode (s : State) : s.pastMove.mode = s.mode := rfl
@[simp] theorem pastMove_mem (s : State) : s.pastMove.mem = s.mem := rfl
@[simp] theorem pastMove_sched (s : State) : s.pastMove.sched = s.sched := rfl
@[simp] theorem pastMove_prot (s : State) : s.pastMove.prot = s.prot := rfl
@[simp] theorem pastMove_params (s : State) : s.pastMove.params = s.params := rfl
@[simp] theorem pastMove_draws (s : State) : s.pastMove.draws = s.draws := rfl
@[simp] theorem pastMove_events (s : State) : s.pastMove.events = s.events := rfl
@[simp] theorem pastMove_hung (s : State) : s.pastMove.hung = s.hung := rfl
@[simp] theorem pastMove_arrivals (s : State) : s.pastMove.arrivals = s.arrivals.tail := rfl

@[simp] theorem quietFirst_tail (world : List (Option Arrival)) : (quietFirst world).tail = world := by cases world <;> rfl

/-- What the outside world does before the next instruction (70_reset_and_hazards.md R268). -/
theorem nextMove_cases (s : State) :
    (s.arrivals = [] ∧ s.nextMove = none) ∨ (∃ rest, s.arrivals = none :: rest ∧ s.nextMove = none) ∨
      ∃ m rest, s.arrivals = some m :: rest ∧ s.nextMove = some m := by
  unfold State.nextMove
  rcases s.arrivals with _ | ⟨_ | m, rest⟩
  · exact .inl ⟨rfl, rfl⟩
  · exact .inr (.inl ⟨rest, rfl, rfl⟩)
  · exact .inr (.inr ⟨m, rest, rfl, rfl⟩)

@[simp] theorem pc_step (p : RelAddr) : Ending.step.pc p = p + 1 := rfl
@[simp] theorem pc_skip (p : RelAddr) : Ending.skip.pc p = p + 2 := rfl
@[simp] theorem pc_branch (p t : RelAddr) : (Ending.branch t).pc p = t := rfl
@[simp] theorem pc_skipIf (p : RelAddr) (c : Bool) : (skipIf c).pc p = if c then p + 2 else p + 1 := by cases c <;> rfl
@[simp] theorem skipIf_true : skipIf true = .skip := rfl
@[simp] theorem skipIf_false : skipIf false = .step := rfl

/-- A control register number is one of the four (10_state.md R27). -/
theorem control_cases (n : BitVec 2) : n = 0 ∨ n = 1 ∨ n = 2 ∨ n = 3 := by
  revert n; decide

@[simp] theorem control_mode (s : State) : s.control 0 = s.mode := rfl
@[simp] theorem setControl_mode (s : State) (v : Word) : s.setControl 0 v = { s with mode := v } := rfl
@[simp] theorem control_rel (s : State) : s.control 1 = s.rel := rfl
@[simp] theorem setControl_rel (s : State) (v : Word) : s.setControl 1 v = { s with rel := v } := rfl
@[simp] theorem control_ioctl (s : State) : s.control 2 = s.ioctl := rfl
@[simp] theorem setControl_ioctl (s : State) (v : Word) : s.setControl 2 v = { s with ioctl := v } := rfl
@[simp] theorem control_bound (s : State) : s.control 3 = s.bound := rfl
@[simp] theorem setControl_bound (s : State) (v : Word) : s.setControl 3 v = { s with bound := v } := rfl

@[simp] theorem setControl_keeps_ar (s : State) (n : BitVec 2) (v : Word) : (s.setControl n v).ar = s.ar := by
  rcases control_cases n with rfl | rfl | rfl | rfl <;> rfl
@[simp] theorem setControl_keeps_br (s : State) (n : BitVec 2) (v : Word) : (s.setControl n v).br = s.br := by
  rcases control_cases n with rfl | rfl | rfl | rfl <;> rfl
@[simp] theorem setControl_keeps_xr (s : State) (n : BitVec 2) (v : Word) : (s.setControl n v).xr = s.xr := by
  rcases control_cases n with rfl | rfl | rfl | rfl <;> rfl
@[simp] theorem setControl_keeps_p (s : State) (n : BitVec 2) (v : Word) : (s.setControl n v).p = s.p := by
  rcases control_cases n with rfl | rfl | rfl | rfl <;> rfl
@[simp] theorem setControl_keeps_mem (s : State) (n : BitVec 2) (v : Word) : (s.setControl n v).mem = s.mem := by
  rcases control_cases n with rfl | rfl | rfl | rfl <;> rfl
@[simp] theorem setControl_keeps_sched (s : State) (n : BitVec 2) (v : Word) : (s.setControl n v).sched = s.sched := by
  rcases control_cases n with rfl | rfl | rfl | rfl <;> rfl
@[simp] theorem setControl_keeps_prot (s : State) (n : BitVec 2) (v : Word) : (s.setControl n v).prot = s.prot := by
  rcases control_cases n with rfl | rfl | rfl | rfl <;> rfl
@[simp] theorem setControl_keeps_params (s : State) (n : BitVec 2) (v : Word) : (s.setControl n v).params = s.params := by
  rcases control_cases n with rfl | rfl | rfl | rfl <;> rfl
@[simp] theorem setControl_keeps_draws (s : State) (n : BitVec 2) (v : Word) : (s.setControl n v).draws = s.draws := by
  rcases control_cases n with rfl | rfl | rfl | rfl <;> rfl
@[simp] theorem setControl_keeps_arrivals (s : State) (n : BitVec 2) (v : Word) : (s.setControl n v).arrivals = s.arrivals := by
  rcases control_cases n with rfl | rfl | rfl | rfl <;> rfl
@[simp] theorem setControl_keeps_events (s : State) (n : BitVec 2) (v : Word) : (s.setControl n v).events = s.events := by
  rcases control_cases n with rfl | rfl | rfl | rfl <;> rfl
@[simp] theorem setControl_keeps_hung (s : State) (n : BitVec 2) (v : Word) : (s.setControl n v).hung = s.hung := by
  rcases control_cases n with rfl | rfl | rfl | rfl <;> rfl

/-- A control register holds what was last written to it (10_state.md R27). -/
@[simp] theorem control_setControl (s : State) (n : BitVec 2) (v : Word) : (s.setControl n v).control n = v := by
  rcases control_cases n with rfl | rfl | rfl | rfl <;> rfl

/-- Writing one control register leaves the others alone (10_state.md R27). -/
theorem control_setControl_other (s : State) (m n : BitVec 2) (v : Word) (h : m ≠ n) :
    (s.setControl n v).control m = s.control m := by
  rcases control_cases n with rfl | rfl | rfl | rfl <;> rcases control_cases m with rfl | rfl | rfl | rfl <;>
    first | rfl | exact absurd rfl h

end Sys2Proof.Machine
end

