-- ==== Sys2Proof/Laws/Ops.lean ====
section
/-! SUPPORT. What each shared operation can do, said once: memory references, stores, the trap sequence, the end of an
instruction, the shapes of instruction, a move of the outside world. -/

namespace Sys2Proof.Machine

/-- One more step of a run of the host's machine. -/
theorem run_succ (M : Host.Core) (n : Nat) (s : M.State) :
    M.run (n + 1) s =
      match M.step s with
      | .next t => M.run n t
      | .fault r => .fault r
      | .refused r => .refused r := rfl

section Stages
variable {α β : Type}

@[simp] theorem bind_done (v : α) (f : α → Stage β) : (Stage.done v).bind f = f v := rfl
@[simp] theorem bind_trap (c : Cause) (f : α → Stage β) : (Stage.trap c).bind f = .trap c := rfl
@[simp] theorem bind_endless (f : α → Stage β) : (Stage.endless : Stage α).bind f = .endless := rfl
@[simp] theorem bind_fault (e : Fault) (f : α → Stage β) : (Stage.fault e).bind f = .fault e := rfl
@[simp] theorem bind_refused (e : Refusal) (f : α → Stage β) : (Stage.refused e).bind f = .refused e := rfl
@[simp] theorem ofAccess_ok (v : α) : Stage.ofAccess (.ok v) = .done v := rfl
@[simp] theorem ofAccess_error (e : Fault) : (Stage.ofAccess (.error e) : Stage α) = .fault e := rfl

/-- A sequence that is done came through both its parts. -/
theorem bind_eq_done {r : Stage α} {f : α → Stage β} {b : β} (h : r.bind f = .done b) : ∃ a, r = .done a ∧ f a = .done b := by
  cases r <;> simp_all

/-- A sequence traps in its first part or in its second. -/
theorem bind_eq_trap {r : Stage α} {f : α → Stage β} {c : Cause} (h : r.bind f = .trap c) :
    r = .trap c ∨ ∃ a, r = .done a ∧ f a = .trap c := by
  cases r <;> simp_all

/-- A sequence is endless in its first part or in its second. -/
theorem bind_eq_endless {r : Stage α} {f : α → Stage β} (h : r.bind f = .endless) :
    r = .endless ∨ ∃ a, r = .done a ∧ f a = .endless := by
  cases r <;> simp_all

/-- A sequence faults in its first part or in its second. -/
theorem bind_eq_fault {r : Stage α} {f : α → Stage β} {e : Fault} (h : r.bind f = .fault e) :
    r = .fault e ∨ ∃ a, r = .done a ∧ f a = .fault e := by
  cases r <;> simp_all

/-- A sequence is refused in its first part or in its second. -/
theorem bind_eq_refused {r : Stage α} {f : α → Stage β} {e : Refusal} (h : r.bind f = .refused e) :
    r = .refused e ∨ ∃ a, r = .done a ∧ f a = .refused e := by
  cases r <;> simp_all

/-- A memory access is done or faults. -/
theorem ofAccess_cases (r : Except Fault α) : (∃ v, r = .ok v ∧ Stage.ofAccess r = .done v) ∨
    ∃ e, r = .error e ∧ Stage.ofAccess r = .fault e := by
  cases r <;> simp

end Stages

/-- A read of a location that exists gives its word. -/
theorem memRead_eq (s : State) {loc : Nat} (h : loc < s.params.memWords) : memRead s loc = .ok (readWord s.mem loc) := if_pos h

/-- What a read can do. -/
theorem memRead_cases (s : State) (loc : Nat) :
    (loc < s.params.memWords ∧ memRead s loc = .ok (readWord s.mem loc)) ∨
      (s.params.memWords ≤ loc ∧ memRead s loc = .error (.absentLocation loc)) := by
  rcases Nat.lt_or_ge loc s.params.memWords with h | h
  · exact .inl ⟨h, if_pos h⟩
  · exact .inr ⟨h, if_neg (Nat.not_lt.mpr h)⟩

/-- What a write can do. -/
theorem memWrite_cases (s : State) (loc : Nat) (v : Word) :
    (loc < s.params.memWords ∧ memWrite s loc v = .ok { s with mem := writeWord s.mem loc v }) ∨
      (s.params.memWords ≤ loc ∧ memWrite s loc v = .error (.absentLocation loc)) := by
  rcases Nat.lt_or_ge loc s.params.memWords with h | h
  · exact .inl ⟨h, if_pos h⟩
  · exact .inr ⟨h, if_neg (Nat.not_lt.mpr h)⟩

/-- What `Contents` can do (20_memory.md R54, R57). -/
theorem contents_cases (s : State) (q : Word) :
    (location s q < s.params.memWords ∧ contents s q = .ok (readWord s.mem (location s q))) ∨
      (s.params.memWords ≤ location s q ∧ contents s q = .error (.absentLocation (location s q))) :=
  memRead_cases s (location s q)

/-- What `Store` can do (20_memory.md R55, R57). -/
theorem store_cases (s : State) (q v : Word) :
    (storeAllowed s q = true ∧ location s q < s.params.memWords ∧
        store s q v = .done { s with mem := writeWord s.mem (location s q) v }) ∨
      (storeAllowed s q = true ∧ s.params.memWords ≤ location s q ∧
        store s q v = .fault (.absentLocation (location s q))) ∨
      (storeAllowed s q = false ∧ store s q v = .trap .storeProtect) := by
  unfold store
  cases ha : storeAllowed s q with
  | false => simp
  | true => rcases memWrite_cases s (location s q) v with ⟨h, e⟩ | ⟨h, e⟩ <;> simp [h, e]

/-- What the trap sequence can do (60_exceptions.md R236): its three accesses exist, or the first that does not faults. -/
theorem trapSequence_cases (c : Cause) (s : State) :
    (s.trapReady ∧ trapSequence c s = .ok (s.trapped c)) ∨
      (¬ s.trapReady ∧ ∃ loc, s.params.memWords ≤ loc ∧ trapSequence c s = .error (.absentLocation loc)) := by
  unfold trapSequence
  rcases memRead_cases s s.params.relSrc with ⟨h1, e1⟩ | ⟨h1, e1⟩
  · rcases memRead_cases s s.params.boundSrc with ⟨h2, e2⟩ | ⟨h2, e2⟩
    · simp only [e1, e2, physical]
      rcases memWrite_cases
          { s with rel := readWord s.mem s.params.relSrc, bound := readWord s.mem s.params.boundSrc, ioctl := 0 }
          (2 + readWord s.mem s.params.relSrc).toNat (zext24 s.p) with ⟨h3, e3⟩ | ⟨h3, e3⟩
      · exact .inl ⟨⟨h1, h2, h3⟩, by rw [e3]; rfl⟩
      · exact .inr ⟨fun r => Nat.not_lt.mpr h3 r.2.2, _, h3, by rw [e3]⟩
    · exact .inr ⟨fun r => Nat.not_lt.mpr h2 r.2.1, _, h2, by simp only [e1, e2]⟩
  · exact .inr ⟨fun r => Nat.not_lt.mpr h1 r.1, _, h1, by simp only [e1]⟩

/-- What taking a trap can do. -/
theorem takeTrap_cases (c : Cause) (s : State) :
    (s.trapReady ∧ takeTrap c s = .next (s.trapped c)) ∨
      (¬ s.trapReady ∧ ∃ loc, s.params.memWords ≤ loc ∧ takeTrap c s = .fault (.absentLocation loc)) := by
  unfold takeTrap
  rcases trapSequence_cases c s with ⟨h, e⟩ | ⟨h, loc, hl, e⟩
  · exact .inl ⟨h, by rw [e]⟩
  · exact .inr ⟨h, loc, hl, by rw [e]⟩

/-- A trap that leads to a next state. -/
theorem takeTrap_next {c : Cause} {s t : State} (h : takeTrap c s = .next t) : s.trapReady ∧ t = s.trapped c := by
  rcases takeTrap_cases c s with ⟨hr, e⟩ | ⟨_, _, _, e⟩
  · exact ⟨hr, by simpa [e] using h.symm⟩
  · simp [e] at h

@[simp] theorem complete_done (s : State) (v : State × Ending) : complete s (.done v) = .next (v.1.endWith v.2) := rfl
@[simp] theorem complete_trap (s : State) (c : Cause) : complete s (.trap c) = takeTrap c s := rfl
@[simp] theorem complete_endless (s : State) : complete s .endless = .next s.hang := rfl
@[simp] theorem complete_fault (s : State) (e : Fault) : complete s (.fault e) = .fault e := rfl
@[simp] theorem complete_refused (s : State) (e : Refusal) : complete s (.refused e) = .refused e := rfl

/-- How an instruction comes to a next state (40_execution_cycle.md R117). -/
theorem complete_next {s t : State} {r : Stage (State × Ending)} (h : complete s r = .next t) :
    (∃ u e, r = .done (u, e) ∧ t = u.endWith e) ∨ (∃ c, r = .trap c ∧ s.trapReady ∧ t = s.trapped c) ∨
      (r = .endless ∧ t = s.hang) := by
  cases r with
  | done v =>
    obtain ⟨u, e⟩ := v
    exact .inl ⟨u, e, rfl, by simpa using h.symm⟩
  | trap c => exact .inr (.inl ⟨c, rfl, takeTrap_next h⟩)
  | endless => exact .inr (.inr ⟨rfl, by simpa using h.symm⟩)
  | fault e => simp at h
  | refused e => simp at h

/-- How an instruction comes to a fault: through its own accesses, or through those of the trap it takes. -/
theorem complete_faults {s : State} {r : Stage (State × Ending)} {e : Fault} (h : complete s r = .fault e) :
    r = .fault e ∨ ∃ c, r = .trap c ∧ takeTrap c s = .fault e := by
  cases r with
  | done v => obtain ⟨u, e⟩ := v; simp at h
  | trap c => exact .inr ⟨c, rfl, h⟩
  | endless => simp at h
  | fault f => exact .inl (by simpa using h)
  | refused f => simp at h

/-- How an instruction comes to be refused. -/
theorem complete_refuses {s : State} {r : Stage (State × Ending)} {e : Refusal} (h : complete s r = .refused e) :
    r = .refused e := by
  cases r with
  | trap c => rcases takeTrap_cases c s with ⟨_, e⟩ | ⟨_, _, _, e⟩ <;> simp [e] at h
  | refused f => simpa using h
  | done v => obtain ⟨u, f⟩ := v; simp at h
  | endless => simp at h
  | fault f => simp at h

/-- What a move of the outside world can do (70_reset_and_hazards.md R268). -/
theorem takeArrival_next {m : Arrival} {s t : State} (h : takeArrival m s = .next t) :
    (m = .start ∧ s.trapReady ∧ t = s.trapped .start) ∨
      (∃ loc v, m = .write loc v ∧ loc < s.params.memWords ∧ t = { s with mem := writeWord s.mem loc v }) ∨
      (∃ on, m = .schedule on ∧ t = { s with sched := on }) ∨ (∃ set, m = .protects set ∧ t = { s with prot := set }) := by
  cases m with
  | start => exact .inl ⟨rfl, takeTrap_next h⟩
  | write loc v =>
    rcases memWrite_cases s loc v with ⟨hl, e⟩ | ⟨_, e⟩
    · exact .inr (.inl ⟨loc, v, rfl, hl, by simpa [takeArrival, e] using h.symm⟩)
    · simp [takeArrival, e] at h
  | schedule on => exact .inr (.inr (.inl ⟨on, rfl, by simpa [takeArrival] using h.symm⟩))
  | protects set => exact .inr (.inr (.inr ⟨set, rfl, by simpa [takeArrival] using h.symm⟩))

end Sys2Proof.Machine
end

