-- ==== Sys2Proof/Laws/Address.lean ====
section
/-! SUPPORT. The addressing loop (30_encoding.md R87): one pass, what it can end in, more passes than it needs. -/

namespace Sys2Proof.Machine

/-- Without indirection one pass is enough. -/
@[simp] theorem addressLoop_direct (n : Nat) (s : State) {a : Operand} (h : a.i = false) :
    addressLoop (n + 1) s a = .done (passAddress s a) := by
  simp [addressLoop, h]

/-- One pass with indirection. -/
theorem addressLoop_indirect (n : Nat) (s : State) {a : Operand} (h : a.i = true) :
    addressLoop (n + 1) s a = (Stage.ofAccess (contents s (passAddress s a))).bind fun t =>
      if t.getLsbD 23 then .done (absoluteAddress s t) else addressLoop n s (operandOf t) := by
  simp [addressLoop, h]

/-- With X = 0 and I = 0 the effective address is W. -/
@[simp] theorem ea_direct (s : State) (w : RelAddr) : ea s (.direct w) = .done (zext24 w) := rfl

/-- The addressing loop cannot trap and cannot be refused (30_encoding.md R87). -/
theorem addressLoop_cases (n : Nat) (s : State) (a : Operand) :
    (∃ q, addressLoop n s a = .done q) ∨ addressLoop n s a = .endless ∨
      ∃ loc, s.params.memWords ≤ loc ∧ addressLoop n s a = .fault (.absentLocation loc) := by
  induction n generalizing a with
  | zero => exact .inr (.inl rfl)
  | succ n ih =>
    cases hi : a.i with
    | false => exact .inl ⟨_, addressLoop_direct n s hi⟩
    | true =>
      rw [addressLoop_indirect n s hi]
      rcases contents_cases s (passAddress s a) with ⟨_, e⟩ | ⟨hl, e⟩
      · rw [e]
        simp only [ofAccess_ok, bind_done]
        split
        · exact .inl ⟨_, rfl⟩
        · exact ih _
      · exact .inr (.inr ⟨_, hl, by simp [e]⟩)

/-- What the effective address computation can do. -/
theorem ea_cases (s : State) (a : Operand) :
    (∃ q, ea s a = .done q) ∨ ea s a = .endless ∨
      ∃ loc, s.params.memWords ≤ loc ∧ ea s a = .fault (.absentLocation loc) :=
  addressLoop_cases addressPasses s a

/-- What reading the operand can do: it cannot trap (30_encoding.md R87; 20_memory.md R54). -/
theorem operandWord_cases (s : State) (a : Operand) :
    (∃ q, ea s a = .done q ∧ location s q < s.params.memWords ∧
        operandWord s a = .done (readWord s.mem (location s q))) ∨
      (ea s a = .endless ∧ operandWord s a = .endless) ∨
      ∃ loc, s.params.memWords ≤ loc ∧ operandWord s a = .fault (.absentLocation loc) := by
  unfold operandWord
  rcases ea_cases s a with ⟨q, e⟩ | e | ⟨loc, hl, e⟩
  · rcases contents_cases s q with ⟨hl, ec⟩ | ⟨hl, ec⟩
    · exact .inl ⟨q, e, hl, by simp [e, ec]⟩
    · exact .inr (.inr ⟨_, hl, by simp [e, ec]⟩)
  · exact .inr (.inl ⟨e, by simp [e]⟩)
  · exact .inr (.inr ⟨loc, hl, by simp [e]⟩)

/-- One more pass changes nothing for a chain that has ended. -/
theorem addressLoop_succ (n : Nat) (s : State) (a : Operand) (h : addressLoop n s a ≠ .endless) :
    addressLoop (n + 1) s a = addressLoop n s a := by
  induction n generalizing a with
  | zero => exact absurd rfl h
  | succ n ih =>
    cases hi : a.i with
    | false => rw [addressLoop_direct _ s hi, addressLoop_direct _ s hi]
    | true =>
      rw [addressLoop_indirect n s hi] at h
      rw [addressLoop_indirect _ s hi, addressLoop_indirect _ s hi]
      rcases contents_cases s (passAddress s a) with ⟨_, e⟩ | ⟨_, e⟩
      · rw [e] at h ⊢
        simp only [ofAccess_ok, bind_done] at h ⊢
        split
        · rfl
        · next hb => rw [if_neg hb] at h; exact ih _ h
      · simp [e]

/-- The address of one pass is relative: bits above the low 14 are zero (20_memory.md R51). -/
theorem passAddress_le (s : State) (a : Operand) : (passAddress s a).toNat ≤ 0o37777 := by
  have bound : ∀ w : RelAddr, (zext24 w).toNat ≤ 0o37777 := fun w => by
    have := w.isLt
    simp only [zext24, BitVec.toNat_setWidth]
    omega
  unfold passAddress
  split <;> exact bound _

/-- How an instruction that computes Q comes to a next state. -/
theorem withAddress_next {s t : State} {a : Operand} {body : Word → Stage (State × Ending)}
    (h : withAddress s a body = .next t) :
    (∃ q u e, ea s a = .done q ∧ body q = .done (u, e) ∧ t = u.endWith e) ∨
      (∃ q c, ea s a = .done q ∧ body q = .trap c ∧ s.trapReady ∧ t = s.trapped c) ∨
      (∃ q, ea s a = .done q ∧ body q = .endless ∧ t = s.hang) ∨ (ea s a = .endless ∧ t = s.hang) := by
  rcases complete_next h with ⟨u, e, hr, ht⟩ | ⟨c, hr, ht⟩ | ⟨hr, ht⟩
  · obtain ⟨q, hq, hb⟩ := bind_eq_done hr
    exact .inl ⟨q, u, e, hq, hb, ht⟩
  · rcases bind_eq_trap hr with hq | ⟨q, hq, hb⟩
    · rcases ea_cases s a with ⟨_, e⟩ | e | ⟨_, _, e⟩ <;> simp [e] at hq
    · exact .inr (.inl ⟨q, c, hq, hb, ht⟩)
  · rcases bind_eq_endless hr with hq | ⟨q, hq, hb⟩
    · exact .inr (.inr (.inr ⟨hq, ht⟩))
    · exact .inr (.inr (.inl ⟨q, hq, hb, ht⟩))

/-- How an instruction whose formula names D comes to a next state. -/
theorem withOperand_next {s t : State} {a : Operand} {body : Word → State × Ending}
    (h : withOperand s a body = .next t) :
    (∃ q, ea s a = .done q ∧ location s q < s.params.memWords ∧
        t = (body (readWord s.mem (location s q))).1.endWith (body (readWord s.mem (location s q))).2) ∨
      (ea s a = .endless ∧ t = s.hang) := by
  unfold withOperand at h
  rcases operandWord_cases s a with ⟨q, hq, hl, e⟩ | ⟨he, e⟩ | ⟨loc, hl, e⟩
  · exact .inl ⟨q, hq, hl, by simpa [e] using h.symm⟩
  · exact .inr ⟨he, by simpa [e] using h.symm⟩
  · simp [e] at h

/-- How an instruction that only stores comes to a next state. -/
theorem storing_next {s t : State} {a : Operand} {v : Word} (h : storing s a v = .next t) :
    (∃ q, ea s a = .done q ∧ storeAllowed s q = true ∧ location s q < s.params.memWords ∧
        t = { s with mem := writeWord s.mem (location s q) v, p := s.p + 1 }) ∨
      (∃ q, ea s a = .done q ∧ storeAllowed s q = false ∧ s.trapReady ∧ t = s.trapped .storeProtect) ∨
      (ea s a = .endless ∧ t = s.hang) := by
  rcases withAddress_next h with ⟨q, u, e, hq, hb, ht⟩ | ⟨q, c, hq, hb, ht⟩ | ⟨q, hq, hb, ht⟩ | ht
  · rcases store_cases s q v with ⟨ha, hl, e⟩ | ⟨_, _, e⟩ | ⟨_, e⟩
    · refine .inl ⟨q, hq, ha, hl, ?_⟩
      simp only [e, bind_done, Stage.done.injEq, Prod.mk.injEq] at hb
      obtain ⟨rfl, rfl⟩ := hb
      exact ht
    · simp [e] at hb
    · simp [e] at hb
  · rcases store_cases s q v with ⟨_, _, e⟩ | ⟨_, _, e⟩ | ⟨ha, e⟩
    · simp [e] at hb
    · simp [e] at hb
    · simp only [e, bind_trap, Stage.trap.injEq] at hb
      subst hb
      exact .inr (.inl ⟨q, hq, ha, ht⟩)
  · rcases store_cases s q v with ⟨_, _, e⟩ | ⟨_, _, e⟩ | ⟨_, e⟩ <;> simp [e] at hb
  · exact .inr (.inr ht)

/-- How an instruction that reads D and stores at Q comes to a next state. -/
theorem updating_next {s t : State} {a : Operand} {f : Word → Word} {after : State → Word → State × Ending}
    (h : updating s a f after = .next t) :
    (∃ q, ea s a = .done q ∧ storeAllowed s q = true ∧ location s q < s.params.memWords ∧
        t = (after { s with mem := writeWord s.mem (location s q) (f (readWord s.mem (location s q))) }
              (readWord s.mem (location s q))).1.endWith
            (after { s with mem := writeWord s.mem (location s q) (f (readWord s.mem (location s q))) }
              (readWord s.mem (location s q))).2) ∨
      (∃ q, ea s a = .done q ∧ storeAllowed s q = false ∧ s.trapReady ∧ t = s.trapped .storeProtect) ∨
      (ea s a = .endless ∧ t = s.hang) := by
  rcases withAddress_next h with ⟨q, u, e, hq, hb, ht⟩ | ⟨q, c, hq, hb, ht⟩ | ⟨q, hq, hb, ht⟩ | ht
  all_goals first
    | exact .inr (.inr ht)
    | (rcases contents_cases s q with ⟨hl, ec⟩ | ⟨_, ec⟩
       · simp only [ec, ofAccess_ok, bind_done] at hb
         rcases store_cases s q (f (readWord s.mem (location s q))) with ⟨ha, _, es⟩ | ⟨_, _, es⟩ | ⟨ha, es⟩
         · simp only [es, bind_done] at hb
           first
             | (refine .inl ⟨q, hq, ha, hl, ?_⟩
                simp only [Stage.done.injEq] at hb
                rw [hb]; exact ht)
             | simp at hb
         · simp [es] at hb
         · simp only [es, bind_trap] at hb
           first
             | (simp only [Stage.trap.injEq] at hb
                subst hb
                exact .inr (.inl ⟨q, hq, ha, ht⟩))
             | simp at hb
       · simp [ec] at hb)

end Sys2Proof.Machine
end

