-- ==== Sys2Proof/Laws/Decode.lean ====
section
/-! SUPPORT. The fields of an encoded word (30_encoding.md R82). -/

namespace Sys2Proof

/-- Bit `k` of `Encode(x, p, op, i, addr)`. -/
theorem getLsbD_encodeFields (x p : Bool) (op : BitVec 6) (i : Bool) (addr : RelAddr) (k : Nat) :
    (encodeFields x p op i addr).getLsbD k =
      if k < 14 then addr.getLsbD k
      else if k = 14 then i
      else if k < 21 then op.getLsbD (k - 15)
      else if k = 21 then p
      else if k = 22 then x
      else false := by
  simp only [encodeFields, BitVec.getLsbD_append, BitVec.getLsbD_ofBool]
  by_cases h1 : k < 14
  · simp [h1]
  · by_cases h2 : k = 14
    · subst h2; simp
    · by_cases h3 : k < 21
      · have a : ¬ k - 14 < 1 := by omega
        have b : k - 14 - 1 < 6 := by omega
        simp [h1, h2, h3, a, show k - 14 - 1 = k - 15 by omega, show ¬ 6 ≤ k - 15 by omega]
      · by_cases h4 : k = 21
        · subst h4; simp
        · by_cases h5 : k = 22
          · subst h5; simp
          · have a : ¬ k - 14 < 1 := by omega
            have b : ¬ k - 14 - 1 < 6 := by omega
            have c : ¬ k - 14 - 1 - 6 < 1 := by omega
            have d : ¬ k - 14 - 1 - 6 - 1 < 1 := by omega
            simp [h1, h2, h3, h4, h5, a, b, c, d]

/-- Bit 0 of an encoded word is 0 (30_encoding.md R82; log 12). -/
theorem bit0_encodeFields (x p : Bool) (op : BitVec 6) (i : Bool) (addr : RelAddr) :
    (encodeFields x p op i addr).getLsbD 23 = false := by
  rw [getLsbD_encodeFields]; rfl

@[simp] theorem fieldX_encodeFields (x p : Bool) (op : BitVec 6) (i : Bool) (addr : RelAddr) :
    fieldX (encodeFields x p op i addr) = x := by
  rw [fieldX, getLsbD_encodeFields]; simp

@[simp] theorem fieldPop_encodeFields (x p : Bool) (op : BitVec 6) (i : Bool) (addr : RelAddr) :
    fieldPop (encodeFields x p op i addr) = p := by
  rw [fieldPop, getLsbD_encodeFields]; simp

@[simp] theorem fieldI_encodeFields (x p : Bool) (op : BitVec 6) (i : Bool) (addr : RelAddr) :
    fieldI (encodeFields x p op i addr) = i := by
  rw [fieldI, getLsbD_encodeFields]; simp

@[simp] theorem fieldOp_encodeFields (x p : Bool) (op : BitVec 6) (i : Bool) (addr : RelAddr) :
    fieldOp (encodeFields x p op i addr) = op := by
  apply BitVec.eq_of_getLsbD_eq
  intro k hk
  simp only [fieldOp, BitVec.getLsbD_extractLsb', getLsbD_encodeFields]
  simp [hk, show ¬ 15 + k < 14 by omega, show ¬ 15 + k = 14 by omega, show 15 + k < 21 by omega]

@[simp] theorem fieldW_encodeFields (x p : Bool) (op : BitVec 6) (i : Bool) (addr : RelAddr) :
    fieldW (encodeFields x p op i addr) = addr := by
  apply BitVec.eq_of_getLsbD_eq
  intro k hk
  simp [fieldW, getLsbD_encodeFields, hk]

@[simp] theorem operandOf_encodeFields (x p : Bool) (op : BitVec 6) (i : Bool) (addr : RelAddr) :
    operandOf (encodeFields x p op i addr) = ⟨x, i, addr⟩ := by
  simp [operandOf]

/-- A word with Pbit = 0 decodes by its operation code (30_encoding.md R91). -/
@[simp] theorem decodeWord_encodeMachine (op : BitVec 6) (a : Operand) :
    decodeWord (encodeMachine op a) = decodeMachine op a := by
  simp [decodeWord, encodeMachine]

/-- A word is its fields and bit 0 (30_encoding.md R81). -/
theorem encodeFields_fields (w : Word) :
    encodeFields (fieldX w) (fieldPop w) (fieldOp w) (fieldI w) (fieldW w) = w &&& 0o37777777#24 := by
  apply BitVec.eq_of_getLsbD_eq
  intro k hk
  rw [getLsbD_encodeFields]
  have mask : ∀ j : Fin 24, (0o37777777#24).getLsbD j.val = decide (j.val < 23) := by decide
  have := mask ⟨k, hk⟩
  simp only [BitVec.getLsbD_and] at *
  rw [this]
  simp only [fieldX, fieldPop, fieldOp, fieldI, fieldW, BitVec.getLsbD_extractLsb']
  split
  · simp [*]; omega
  · split
    · subst_vars; simp
    · split
      · rw [show 15 + (k - 15) = k by omega]; simp [show k - 15 < 6 by omega, show k < 23 by omega]
      · split
        · subst_vars; simp
        · split
          · subst_vars; simp
          · simp [show ¬ k < 23 by omega]

end Sys2Proof
end

