-- ==== Sys2Proof/Laws/Execute.lean ====
section
/-! SUPPORT. EXU: what it executes, and that only an EXU looks at what an EXU means (47_miscellaneous.md R201). -/

namespace Sys2Proof.Machine

/-- The meaning of every instruction is its meaning below EXU, with EXU as it is. -/
theorem execBelow_execExu (i : Instr) (s : State) : execBelow execExu i s = exec i s := by
  cases i <;> rfl

/-- Any other instruction means under EXU what it means by itself. -/
theorem execBelow_other (f : Operand → State → Result) {i : Instr} (s : State) (h : i.isExecute = false) :
    execBelow f i s = exec i s := by
  cases i <;> first | rfl | simp [Instr.isExecute] at h

/-- The instruction EXU is one with an address part. -/
theorem isExecute_cases (i : Instr) : i.isExecute = false ∨ ∃ a, i = .exu a := by
  cases i <;> first | exact .inl rfl | exact .inr ⟨_, rfl⟩

/-- One link of a chain of EXU words. -/
theorem executeChain_succ (n : Nat) (s : State) {a : Operand} {t : Word} (h : operandWord s a = .done t) :
    executeChain (n + 1) a s = execBelow (executeChain n) (decodeWord t) s := by
  simp [executeChain, h]

/-- What a chain of EXU words can do: it comes to an instruction that is no EXU, it hangs, or a location does not exist. -/
theorem executeChain_cases (n : Nat) (a : Operand) (s : State) :
    (∃ i, i.isExecute = false ∧ executeChain n a s = exec i s) ∨ executeChain n a s = .next s.hang ∨
      ∃ loc, s.params.memWords ≤ loc ∧ executeChain n a s = .fault (.absentLocation loc) := by
  induction n generalizing a with
  | zero => exact .inr (.inl rfl)
  | succ n ih =>
    rcases operandWord_cases s a with ⟨q, _, _, e⟩ | ⟨_, e⟩ | ⟨loc, hl, e⟩
    · rw [executeChain_succ n s e]
      rcases isExecute_cases (decodeWord (readWord s.mem (location s q))) with h | ⟨b, h⟩
      · exact .inl ⟨_, h, execBelow_other _ s h⟩
      · rw [h]
        exact ih b
    · exact .inr (.inl (by simp [executeChain, e]))
    · exact .inr (.inr ⟨loc, hl, by simp [executeChain, e]⟩)

/-- What EXU can do (47_miscellaneous.md R201). -/
theorem execExu_cases (a : Operand) (s : State) :
    (∃ i, i.isExecute = false ∧ exec (.exu a) s = exec i s) ∨ exec (.exu a) s = .next s.hang ∨
      ∃ loc, s.params.memWords ≤ loc ∧ exec (.exu a) s = .fault (.absentLocation loc) :=
  executeChain_cases executeDepth a s

end Sys2Proof.Machine
end

