-- ==== Sys2Proof/Laws/PerInstr.lean ====
section
/-! SUPPORT. A fact about the encoding of each instruction, one lemma per constructor. -/

namespace Sys2Proof.Laws

/-- What the fields of an instruction's word hold: bit 0 of the word is 0 (30_encoding.md R82; log 12), the pop bit is set exactly
for a pop (R95), and the address part is the instruction's own (R82). -/
def EncodedFields.Statement (i : Instr) : Prop :=
  (encodeWord i).getLsbD 23 = false ∧ (fieldPop (encodeWord i) = true ↔ i.addressPart = none) ∧
    ∀ a, i.addressPart = some a → operandOf (encodeWord i) = a

/-- Every word with Pbit = 0 has the fields it was encoded from. -/
theorem encodedFields_machine {i : Instr} {op : BitVec 6} {a : Operand} (he : encodeWord i = encodeMachine op a)
    (ha : i.addressPart = some a) : EncodedFields.Statement i := by
  unfold EncodedFields.Statement
  rw [he, ha]
  exact ⟨bit0_encodeFields .., by simp [encodeMachine], fun b hb => by simpa [encodeMachine] using hb⟩

theorem EncodedFields.hlt (a : Operand) : EncodedFields.Statement (.hlt a) := encodedFields_machine rfl rfl
theorem EncodedFields.bru (a : Operand) : EncodedFields.Statement (.bru a) := encodedFields_machine rfl rfl
theorem EncodedFields.etr (a : Operand) : EncodedFields.Statement (.etr a) := encodedFields_machine rfl rfl
theorem EncodedFields.mrg (a : Operand) : EncodedFields.Statement (.mrg a) := encodedFields_machine rfl rfl
theorem EncodedFields.eor (a : Operand) : EncodedFields.Statement (.eor a) := encodedFields_machine rfl rfl
theorem EncodedFields.nop (a : Operand) : EncodedFields.Statement (.nop a) := encodedFields_machine rfl rfl
theorem EncodedFields.exu (a : Operand) : EncodedFields.Statement (.exu a) := encodedFields_machine rfl rfl
theorem EncodedFields.sta (a : Operand) : EncodedFields.Statement (.sta a) := encodedFields_machine rfl rfl
theorem EncodedFields.stb (a : Operand) : EncodedFields.Statement (.stb a) := encodedFields_machine rfl rfl
theorem EncodedFields.stx (a : Operand) : EncodedFields.Statement (.stx a) := encodedFields_machine rfl rfl
theorem EncodedFields.brx (a : Operand) : EncodedFields.Statement (.brx a) := encodedFields_machine rfl rfl
theorem EncodedFields.brm (a : Operand) : EncodedFields.Statement (.brm a) := encodedFields_machine rfl rfl
theorem EncodedFields.upot (a : Operand) : EncodedFields.Statement (.upot a) := encodedFields_machine rfl rfl
theorem EncodedFields.upin (a : Operand) : EncodedFields.Statement (.upin a) := encodedFields_machine rfl rfl
theorem EncodedFields.rch (a : Operand) : EncodedFields.Statement (.rch a) := encodedFields_machine rfl rfl
theorem EncodedFields.ske (a : Operand) : EncodedFields.Statement (.ske a) := encodedFields_machine rfl rfl
theorem EncodedFields.brr (a : Operand) : EncodedFields.Statement (.brr a) := encodedFields_machine rfl rfl
theorem EncodedFields.skb (a : Operand) : EncodedFields.Statement (.skb a) := encodedFields_machine rfl rfl
theorem EncodedFields.skn (a : Operand) : EncodedFields.Statement (.skn a) := encodedFields_machine rfl rfl
theorem EncodedFields.sub (a : Operand) : EncodedFields.Statement (.sub a) := encodedFields_machine rfl rfl
theorem EncodedFields.add (a : Operand) : EncodedFields.Statement (.add a) := encodedFields_machine rfl rfl
theorem EncodedFields.skr (a : Operand) : EncodedFields.Statement (.skr a) := encodedFields_machine rfl rfl
theorem EncodedFields.min (a : Operand) : EncodedFields.Statement (.min a) := encodedFields_machine rfl rfl
theorem EncodedFields.xma (a : Operand) : EncodedFields.Statement (.xma a) := encodedFields_machine rfl rfl
theorem EncodedFields.adm (a : Operand) : EncodedFields.Statement (.adm a) := encodedFields_machine rfl rfl
theorem EncodedFields.shift (a : Operand) : EncodedFields.Statement (.shift a) := encodedFields_machine rfl rfl
theorem EncodedFields.skm (a : Operand) : EncodedFields.Statement (.skm a) := encodedFields_machine rfl rfl
theorem EncodedFields.ldx (a : Operand) : EncodedFields.Statement (.ldx a) := encodedFields_machine rfl rfl
theorem EncodedFields.ska (a : Operand) : EncodedFields.Statement (.ska a) := encodedFields_machine rfl rfl
theorem EncodedFields.skg (a : Operand) : EncodedFields.Statement (.skg a) := encodedFields_machine rfl rfl
theorem EncodedFields.ldb (a : Operand) : EncodedFields.Statement (.ldb a) := encodedFields_machine rfl rfl
theorem EncodedFields.lda (a : Operand) : EncodedFields.Statement (.lda a) := encodedFields_machine rfl rfl
theorem EncodedFields.eax (a : Operand) : EncodedFields.Statement (.eax a) := encodedFields_machine rfl rfl
theorem EncodedFields.ups (a : Operand) : EncodedFields.Statement (.ups a) := encodedFields_machine rfl rfl
theorem EncodedFields.pop (op : BitVec 6) (a : Operand) : EncodedFields.Statement (.pop op a) :=
  ⟨bit0_encodeFields .., by simp [encodeWord, Instr.addressPart], by simp [Instr.addressPart]⟩
theorem EncodedFields.illegal60 (op : BitVec 6) (a : Operand) :
    EncodedFields.Statement (.illegal60 op a) := encodedFields_machine rfl rfl
theorem EncodedFields.illegal50 (op : BitVec 6) (a : Operand) :
    EncodedFields.Statement (.illegal50 op a) := encodedFields_machine rfl rfl
theorem EncodedFields.illegal44 (op : BitVec 6) (a : Operand) :
    EncodedFields.Statement (.illegal44 op a) := encodedFields_machine rfl rfl
theorem EncodedFields.illegal42 (op : BitVec 6) (a : Operand) :
    EncodedFields.Statement (.illegal42 op a) := encodedFields_machine rfl rfl
theorem EncodedFields.lcy (w : RelAddr) : EncodedFields.Statement (.lcy w) := encodedFields_machine rfl rfl
theorem EncodedFields.lsh (w : RelAddr) : EncodedFields.Statement (.lsh w) := encodedFields_machine rfl rfl
theorem EncodedFields.rsh (w : RelAddr) : EncodedFields.Statement (.rsh w) := encodedFields_machine rfl rfl
theorem EncodedFields.lrsh (w : RelAddr) : EncodedFields.Statement (.lrsh w) := encodedFields_machine rfl rfl
theorem EncodedFields.rcy (w : RelAddr) : EncodedFields.Statement (.rcy w) := encodedFields_machine rfl rfl
theorem EncodedFields.shiftTrap5 (w : RelAddr) : EncodedFields.Statement (.shiftTrap5 w) := encodedFields_machine rfl rfl
theorem EncodedFields.shiftTrap6 (w : RelAddr) : EncodedFields.Statement (.shiftTrap6 w) := encodedFields_machine rfl rfl
theorem EncodedFields.xca (w : RelAddr) : EncodedFields.Statement (.xca w) := encodedFields_machine rfl rfl
theorem EncodedFields.cca (w : RelAddr) : EncodedFields.Statement (.cca w) := encodedFields_machine rfl rfl
theorem EncodedFields.clab (w : RelAddr) : EncodedFields.Statement (.clab w) := encodedFields_machine rfl rfl
theorem EncodedFields.cla (w : RelAddr) : EncodedFields.Statement (.cla w) := encodedFields_machine rfl rfl
theorem EncodedFields.clb (w : RelAddr) : EncodedFields.Statement (.clb w) := encodedFields_machine rfl rfl
theorem EncodedFields.clx (w : RelAddr) : EncodedFields.Statement (.clx w) := encodedFields_machine rfl rfl
theorem EncodedFields.cab (w : RelAddr) : EncodedFields.Statement (.cab w) := encodedFields_machine rfl rfl
theorem EncodedFields.cba (w : RelAddr) : EncodedFields.Statement (.cba w) := encodedFields_machine rfl rfl
theorem EncodedFields.xab (w : RelAddr) : EncodedFields.Statement (.xab w) := encodedFields_machine rfl rfl
theorem EncodedFields.cbx (w : RelAddr) : EncodedFields.Statement (.cbx w) := encodedFields_machine rfl rfl
theorem EncodedFields.cxb (w : RelAddr) : EncodedFields.Statement (.cxb w) := encodedFields_machine rfl rfl
theorem EncodedFields.xxb (w : RelAddr) : EncodedFields.Statement (.xxb w) := encodedFields_machine rfl rfl
theorem EncodedFields.cxa (w : RelAddr) : EncodedFields.Statement (.cxa w) := encodedFields_machine rfl rfl
theorem EncodedFields.cax (w : RelAddr) : EncodedFields.Statement (.cax w) := encodedFields_machine rfl rfl
theorem EncodedFields.xxa (w : RelAddr) : EncodedFields.Statement (.xxa w) := encodedFields_machine rfl rfl
theorem EncodedFields.cna (w : RelAddr) : EncodedFields.Statement (.cna w) := encodedFields_machine rfl rfl
theorem EncodedFields.str (w : RelAddr) : EncodedFields.Statement (.str w) := encodedFields_machine rfl rfl
theorem EncodedFields.upr (w : RelAddr) : EncodedFields.Statement (.upr w) := encodedFields_machine rfl rfl
theorem EncodedFields.pro (w : RelAddr) : EncodedFields.Statement (.pro w) := encodedFields_machine rfl rfl
theorem EncodedFields.upsUndefined (w : RelAddr) : EncodedFields.Statement (.upsUndefined w) := encodedFields_machine rfl rfl

end Sys2Proof.Laws
end

