-- ==== Sys2Proof/Laws/Step.lean ====
section
/-! SUPPORT. What one step can do (40_execution_cycle.md R117; 70_reset_and_hazards.md R266, R268). -/

namespace Sys2Proof.Machine

/-- A state in which an instruction never completes steps to itself. -/
theorem step_hung {s : State} (h : s.hung = true) : step s = .next s := if_pos h

/-- A move of the outside world is one step. -/
theorem step_move {s : State} {m : Arrival} (h : s.hung = false) (hm : s.nextMove = some m) :
    step s = takeArrival m s.pastMove := by
  simp [step, h, hm]

/-- An instruction that the outside world lets run is one step. -/
theorem step_instruction {s : State} {w : Word} (h : s.hung = false) (hm : s.nextMove = none) (hf : fetch s = .ok w) :
    step s = exec (decodeWord w) s.pastMove := by
  simp [step, h, hm, hf]

/-- How a step comes to a next state. -/
theorem step_next {s t : State} (h : step s = .next t) :
    (s.hung = true ∧ t = s) ∨ (∃ m, s.nextMove = some m ∧ takeArrival m s.pastMove = .next t) ∨
      ∃ w, s.nextMove = none ∧ fetch s = .ok w ∧ exec (decodeWord w) s.pastMove = .next t := by
  cases hh : s.hung with
  | true =>
    rw [step_hung hh] at h
    exact .inl ⟨rfl, by simpa using h.symm⟩
  | false =>
    cases hm : s.nextMove with
    | some m => exact .inr (.inl ⟨m, rfl, by rwa [step_move hh hm] at h⟩)
    | none =>
      cases hf : fetch s with
      | ok w => exact .inr (.inr ⟨w, rfl, rfl, by rwa [step_instruction hh hm hf] at h⟩)
      | error e => simp [step, hh, hm, hf] at h

/-- One step of a run, and then the rest of it. -/
theorem run_step {s t : State} (n : Nat) (h : step s = .next t) : Sys2Proof.core.run (n + 1) s = Sys2Proof.core.run n t :=
  (run_succ Sys2Proof.core n s).trans (by rw [show Sys2Proof.core.step s = .next t from h])

/-- A run of one step is that step. -/
theorem run_one (s : State) : Sys2Proof.core.run 1 s = step s := by
  refine (run_succ Sys2Proof.core 0 s).trans ?_
  rw [show Sys2Proof.core.step s = step s from rfl]
  cases step s <;> rfl

end Sys2Proof.Machine
end

