-- ==== Sys2Proof/Tests/Slice0.lean ====
section
/-! SUPPORT. Tests: what WellFormed refuses, what words written out from the spec decode to, one step on the vectors of
95_test_vectors.md, and for each statement with hypotheses a state and operands that meet them. -/

open Sys2Proof Sys2Proof.Machine

namespace Sys2Proof.Tests

/-! ## WellFormed refuses an ill-formed term of each check -/

theorem test_ill_formed_parents :
    (Instr.shift ⟨false, false, 0o400⟩).wellFormed = false ∧ (Instr.rch ⟨false, false, 0o400⟩).wellFormed = false ∧
    (Instr.ups ⟨false, false, 0o400⟩).wellFormed = false := by decide

theorem test_ill_formed_codes :
    (Instr.illegal60 0o57 ⟨false, false, 0⟩).wellFormed = false ∧
    (Instr.illegal50 0o47 ⟨false, false, 0⟩).wellFormed = false ∧
    (Instr.illegal50 0o60 ⟨false, false, 0⟩).wellFormed = false ∧
    (Instr.illegal44 0o43 ⟨false, false, 0⟩).wellFormed = false ∧
    (Instr.illegal44 0o50 ⟨false, false, 0⟩).wellFormed = false ∧
    (Instr.illegal42 0o41 ⟨false, false, 0⟩).wellFormed = false ∧
    (Instr.illegal42 0o44 ⟨false, false, 0⟩).wellFormed = false := by decide

/-- Each row with the number of the next sub-case in its address. -/
theorem test_ill_formed_shifts :
    (Instr.lcy 0o400).wellFormed = false ∧ (Instr.lsh 0o1000).wellFormed = false ∧
    (Instr.rsh 0o1400).wellFormed = false ∧ (Instr.lrsh 0o2000).wellFormed = false ∧
    (Instr.rcy 0o2400).wellFormed = false ∧ (Instr.shiftTrap5 0o3000).wellFormed = false ∧
    (Instr.shiftTrap6 0o2400).wellFormed = false := by decide

/-- Each row with the number of the next sub-case in its address. -/
theorem test_ill_formed_changes :
    (Instr.xca 0o400).wellFormed = false ∧ (Instr.cca 0o1000).wellFormed = false ∧
    (Instr.clab 0o1400).wellFormed = false ∧ (Instr.cla 0o2000).wellFormed = false ∧
    (Instr.clb 0o2400).wellFormed = false ∧ (Instr.clx 0o3000).wellFormed = false ∧
    (Instr.cab 0o3400).wellFormed = false ∧ (Instr.cba 0o4000).wellFormed = false ∧
    (Instr.xab 0o4400).wellFormed = false ∧ (Instr.cbx 0o5000).wellFormed = false ∧
    (Instr.cxb 0o5400).wellFormed = false ∧ (Instr.xxb 0o6000).wellFormed = false ∧
    (Instr.cxa 0o6400).wellFormed = false ∧ (Instr.cax 0o7000).wellFormed = false ∧
    (Instr.xxa 0o7400).wellFormed = false ∧ (Instr.cna 0o0).wellFormed = false := by decide

/-- Each row with the number of the next sub-case in its address. -/
theorem test_ill_formed_signals :
    (Instr.str 0o400).wellFormed = false ∧ (Instr.upr 0o1000).wellFormed = false ∧
    (Instr.pro 0o1400).wellFormed = false ∧ (Instr.upsUndefined 0o0).wellFormed = false := by decide

/-! ## Decoding of words written out from the encoding (30_encoding.md R81, R82, R91 to R96)

The eight octal digits of a word: bits 0, X and Pbit (2 is X, 1 is Pbit), two digits of OP, then I with the two high bits of W
(4 is I), then the other twelve bits of W. -/

theorem test_decode_data_transfer :
    decodeWord 0o23731234#24 = .lda ⟨true, false, 0o31234⟩ ∧
    decodeWord 0o03651234#24 = .ldb ⟨false, true, 0o11234⟩ ∧
    decodeWord 0o03311234#24 = .ldx ⟨false, false, 0o11234⟩ ∧
    decodeWord 0o20771234#24 = .sta ⟨true, true, 0o31234⟩ ∧
    decodeWord 0o21031234#24 = .stb ⟨true, false, 0o31234⟩ ∧
    decodeWord 0o01151234#24 = .stx ⟨false, true, 0o11234⟩ ∧
    decodeWord 0o02711234#24 = .xma ⟨false, false, 0o11234⟩ := by decide

theorem test_decode_arithmetic :
    decodeWord 0o22431234#24 = .add ⟨true, false, 0o31234⟩ ∧
    decodeWord 0o02351234#24 = .sub ⟨false, true, 0o11234⟩ ∧
    decodeWord 0o02611234#24 = .min ⟨false, false, 0o11234⟩ ∧
    decodeWord 0o23071234#24 = .adm ⟨true, true, 0o31234⟩ ∧
    decodeWord 0o20231234#24 = .etr ⟨true, false, 0o31234⟩ ∧
    decodeWord 0o00351234#24 = .mrg ⟨false, true, 0o11234⟩ ∧
    decodeWord 0o00411234#24 = .eor ⟨false, false, 0o11234⟩ := by decide

theorem test_decode_skip :
    decodeWord 0o21731234#24 = .ske ⟨true, false, 0o31234⟩ ∧
    decodeWord 0o03251234#24 = .skm ⟨false, true, 0o11234⟩ ∧
    decodeWord 0o03511234#24 = .skg ⟨false, false, 0o11234⟩ ∧
    decodeWord 0o23471234#24 = .ska ⟨true, true, 0o31234⟩ ∧
    decodeWord 0o22131234#24 = .skb ⟨true, false, 0o31234⟩ ∧
    decodeWord 0o02251234#24 = .skn ⟨false, true, 0o11234⟩ ∧
    decodeWord 0o02511234#24 = .skr ⟨false, false, 0o11234⟩ := by decide

theorem test_decode_branch :
    decodeWord 0o20131234#24 = .bru ⟨true, false, 0o31234⟩ ∧
    decodeWord 0o01251234#24 = .brx ⟨false, true, 0o11234⟩ ∧
    decodeWord 0o01311234#24 = .brm ⟨false, false, 0o11234⟩ ∧
    decodeWord 0o22071234#24 = .brr ⟨true, true, 0o31234⟩ := by decide

theorem test_decode_miscellaneous :
    decodeWord 0o20531234#24 = .nop ⟨true, false, 0o31234⟩ ∧
    decodeWord 0o00651234#24 = .exu ⟨false, true, 0o11234⟩ ∧
    decodeWord 0o04011234#24 = .eax ⟨false, false, 0o11234⟩ ∧
    decodeWord 0o20071234#24 = .hlt ⟨true, true, 0o31234⟩ := by decide

theorem test_decode_io :
    decodeWord 0o21431234#24 = .upot ⟨true, false, 0o31234⟩ ∧
    decodeWord 0o01551234#24 = .upin ⟨false, true, 0o11234⟩ := by decide

theorem test_decode_parents :
    decodeWord 0o23100400#24 = .shift ⟨true, false, 0o400⟩ ∧
    decodeWord 0o03140100#24 = .shift ⟨false, true, 0o100⟩ ∧
    decodeWord 0o21603003#24 = .rch ⟨true, false, 0o3003⟩ ∧
    decodeWord 0o24101005#24 = .ups ⟨true, false, 0o1005⟩ := by decide

theorem test_decode_shift :
    decodeWord 0o03100077#24 = .lcy 0o77 ∧
    decodeWord 0o03100477#24 = .lsh 0o477 ∧
    decodeWord 0o03101077#24 = .rsh 0o1077 ∧
    decodeWord 0o03101477#24 = .lrsh 0o1477 ∧
    decodeWord 0o03102077#24 = .rcy 0o2077 ∧
    decodeWord 0o03102477#24 = .shiftTrap5 0o2477 ∧
    decodeWord 0o03103077#24 = .shiftTrap6 0o3077 ∧
    decodeWord 0o03103400#24 = .shiftTrap6 0o3400 := by decide

theorem test_decode_register_change :
    decodeWord 0o01600001#24 = .xca 0o1 ∧
    decodeWord 0o01600401#24 = .cca 0o401 ∧
    decodeWord 0o01601001#24 = .clab 0o1001 ∧
    decodeWord 0o01601401#24 = .cla 0o1401 ∧
    decodeWord 0o01602001#24 = .clb 0o2001 ∧
    decodeWord 0o01602401#24 = .clx 0o2401 ∧
    decodeWord 0o01603001#24 = .cab 0o3001 ∧
    decodeWord 0o01603401#24 = .cba 0o3401 ∧
    decodeWord 0o01604001#24 = .xab 0o4001 ∧
    decodeWord 0o01604401#24 = .cbx 0o4401 ∧
    decodeWord 0o01605001#24 = .cxb 0o5001 ∧
    decodeWord 0o01605401#24 = .xxb 0o5401 ∧
    decodeWord 0o01606001#24 = .cxa 0o6001 ∧
    decodeWord 0o01606401#24 = .cax 0o6401 ∧
    decodeWord 0o01607001#24 = .xxa 0o7001 ∧
    decodeWord 0o01607401#24 = .cna 0o7401 := by decide

theorem test_decode_ups :
    decodeWord 0o04100005#24 = .str 0o5 ∧
    decodeWord 0o04100405#24 = .upr 0o405 ∧
    decodeWord 0o04101005#24 = .pro 0o1005 ∧
    decodeWord 0o04101405#24 = .upsUndefined 0o1405 := by decide

theorem test_decode_illegal :
    decodeWord 0o04200000#24 = .illegal42 0o42 ⟨false, false, 0⟩ ∧
    decodeWord 0o24340001#24 = .illegal42 0o43 ⟨true, true, 1⟩ ∧
    decodeWord 0o04400000#24 = .illegal44 0o44 ⟨false, false, 0⟩ ∧
    decodeWord 0o04700000#24 = .illegal44 0o47 ⟨false, false, 0⟩ ∧
    decodeWord 0o05000000#24 = .illegal50 0o50 ⟨false, false, 0⟩ ∧
    decodeWord 0o05700000#24 = .illegal50 0o57 ⟨false, false, 0⟩ ∧
    decodeWord 0o06000000#24 = .illegal60 0o60 ⟨false, false, 0⟩ ∧
    decodeWord 0o07737777#24 = .illegal60 0o77 ⟨false, false, 0o37777⟩ := by decide

theorem test_decode_pop :
    decodeWord 0o12301234#24 = .pop 0o23 ⟨false, false, 0o1234⟩ ∧
    decodeWord 0o37740000#24 = .pop 0o77 ⟨true, true, 0⟩ ∧
    decodeWord 0o50000000#24 = .pop 0 ⟨false, false, 0⟩ := by decide

/-- The fields in their order: bit 0, X, Pbit, OP, I, W (30_encoding.md R81). The first word is the one 95_test_vectors.md section
2.1 takes apart; one word for each family. -/
theorem test_decode_bit_by_bit :
    decodeWord (0b0#1 ++ 0b1#1 ++ 0b0#1 ++ 0b011111#6 ++ 0b1#1 ++ 0b00001000000000#14) = .lda ⟨true, true, 0o1000⟩ ∧
    decodeWord (0b0#1 ++ 0b0#1 ++ 0b0#1 ++ 0b010100#6 ++ 0b0#1 ++ 0b00010000000000#14) = .add ⟨false, false, 0o2000⟩ ∧
    decodeWord (0b0#1 ++ 0b0#1 ++ 0b0#1 ++ 0b011101#6 ++ 0b0#1 ++ 0b00010000000000#14) = .skg ⟨false, false, 0o2000⟩ ∧
    decodeWord (0b0#1 ++ 0b0#1 ++ 0b0#1 ++ 0b001011#6 ++ 0b0#1 ++ 0b11111111111111#14) = .brm ⟨false, false, 0o37777⟩ ∧
    decodeWord (0b0#1 ++ 0b0#1 ++ 0b0#1 ++ 0b011001#6 ++ 0b0#1 ++ 0b00000100000101#14) = .lsh 0o405 ∧
    decodeWord (0b0#1 ++ 0b0#1 ++ 0b0#1 ++ 0b001110#6 ++ 0b0#1 ++ 0b00111100000000#14) = .cna 0o7400 ∧
    decodeWord (0b0#1 ++ 0b0#1 ++ 0b0#1 ++ 0b000110#6 ++ 0b0#1 ++ 0b00010000000000#14) = .exu ⟨false, false, 0o2000⟩ ∧
    decodeWord (0b0#1 ++ 0b0#1 ++ 0b0#1 ++ 0b001100#6 ++ 0b0#1 ++ 0b00000000000000#14) = .upot ⟨false, false, 0⟩ ∧
    decodeWord (0b0#1 ++ 0b0#1 ++ 0b0#1 ++ 0b100001#6 ++ 0b0#1 ++ 0b00001000000101#14) = .pro 0o1005 ∧
    decodeWord (0b0#1 ++ 0b0#1 ++ 0b1#1 ++ 0b010011#6 ++ 0b0#1 ++ 0b00001010011100#14) = .pop 0o23 ⟨false, false, 0o1234⟩ ∧
    decodeWord (0b1#1 ++ 0b0#1 ++ 0b0#1 ++ 0b100010#6 ++ 0b0#1 ++ 0b00000000000000#14) = .illegal42 0o42 ⟨false, false, 0⟩ := by
  decide

/-- Too few bytes for a word are refused by name. -/
theorem test_decode_truncated : decode [0x00, 0x82] = .error .truncated := by rfl

/-! ## One step, on the vectors of 95_test_vectors.md -/

/-- The conventions of 95_test_vectors.md: P = 1000B, BOUND = 40000B, SCHED = 1, everything else 0. -/
def base : State := { State.powerOn with p := 0o1000, bound := 0o40000, sched := true }

/-- A state with words of memory set. -/
def put (s : State) (cells : List (Nat × Word)) : State :=
  { s with mem := cells.foldl (fun m c => writeWord m c.1 c.2) s.mem }

/-- The reload words of most trap vectors. -/
def reload (s : State) (cells : List (Nat × Word)) : State := put s ((0o20, 0) :: (0o21, 0o40000) :: cells)

/-- The state after one step that runs the word, if there is one. -/
def run (s : State) (word : Word) : Option State :=
  match step (s.withFetchWord 24 word.toNat) with
  | .next t => some t
  | _ => none

/-- LDA* 100B through an absolute indirect word: no REL added (section 2.3). -/
theorem test_lda :
    (run (put { base with rel := 0o10000 } [(0o10100, 0o40005000), (0o5000, 0o123)]) 0o03740100).map
        (fun t => (t.ar, t.p)) =
      some (0o123, 0o1001) := by rfl

theorem test_lda_indexed :
    (run (put { base with xr := 3 } [(0o2003, 0o77)]) 0o23702000).map (fun t => (t.ar, t.p)) = some (0o77, 0o1001) := by rfl

theorem test_ldb :
    (run (put base [(0o2000, 0o77777777)]) 0o03602000).map (fun t => (t.br, t.ar, t.p)) = some (0o77777777, 0, 0o1001) := by rfl

/-- The old XR indexes. -/
theorem test_ldx :
    (run (put { base with xr := 3 } [(0o2003, 0o77)]) 0o23302000).map (fun t => (t.xr, t.p)) = some (0o77, 0o1001) := by rfl

/-- 2000B < 2001B, relocated (section 2.12). -/
theorem test_sta :
    (run { base with ar := 0o66, rel := 0o10000, bound := 0o2001 } 0o00702000).map
        (fun t => (readWord t.mem 0o12000, t.p)) =
      some (0o66, 0o1001) := by rfl

theorem test_sta_protected :
    (run (reload { base with ar := 0o66, bound := 0o37777 } []) 0o00737777).map
        (fun t => (readWord t.mem 2, readWord t.mem 0o37777, t.bound, t.p, t.events)) =
      some (0o1000, 0, 0o40000, 3, [.trap .storeProtect]) := by rfl

theorem test_stb :
    (run { base with br := 0o22222222 } 0o01002000).map
        (fun t => (readWord t.mem 0o2000, t.p)) =
      some (0o22222222, 0o1001) := by rfl

theorem test_stx :
    (run { base with xr := 4 } 0o21102000).map (fun t => (readWord t.mem 0o2004, t.p)) = some (4, 0o1001) := by rfl

theorem test_xma :
    (run (put { base with ar := 1 } [(0o2000, 2)]) 0o02702000).map
        (fun t => (t.ar, readWord t.mem 0o2000, t.p)) =
      some (2, 1, 0o1001) := by rfl

theorem test_xma_protected :
    (run (reload { base with ar := 1, bound := 0o2000 } [(0o2000, 2)]) 0o02702000).map
        (fun t => (t.ar, readWord t.mem 0o2000, readWord t.mem 2, t.p)) =
      some (1, 2, 0o1000, 3) := by rfl

/-- Signed overflow wraps (section 2.4). -/
theorem test_add :
    (run (put { base with ar := 0o37777777 } [(0o2000, 1)]) 0o02402000).map
        (fun t => (t.ar, t.p)) =
      some (0o40000000, 0o1001) := by rfl

theorem test_add_carry :
    (run (put { base with ar := 0o77777777 } [(0o2000, 1)]) 0o02402000).map (fun t => (t.ar, t.p)) = some (0, 0o1001) := by rfl

theorem test_sub :
    (run (put { base with ar := 0 } [(0o2000, 1)]) 0o02302000).map (fun t => (t.ar, t.p)) = some (0o77777777, 0o1001) := by rfl

theorem test_min :
    (run (put base [(0o2000, 0o77777777)]) 0o02602000).map
        (fun t => (readWord t.mem 0o2000, t.ar, t.p)) =
      some (0, 0, 0o1001) := by rfl

theorem test_adm :
    (run (put { base with ar := 5 } [(0o2000, 0o77777776)]) 0o03002000).map
        (fun t => (readWord t.mem 0o2000, t.ar, t.p)) =
      some (3, 5, 0o1001) := by rfl

theorem test_etr :
    (run (put { base with ar := 0o12345670 } [(0o2000, 0o00777700)]) 0o00202000).map
        (fun t => (t.ar, t.p)) =
      some (0o00345600, 0o1001) := by rfl

theorem test_mrg :
    (run (put { base with ar := 0o12345670 } [(0o2000, 0o00777700)]) 0o00302000).map
        (fun t => (t.ar, t.p)) =
      some (0o12777770, 0o1001) := by rfl

theorem test_eor :
    (run (put { base with ar := 0o12345670 } [(0o2000, 0o00777700)]) 0o00402000).map
        (fun t => (t.ar, t.p)) =
      some (0o12432170, 0o1001) := by rfl

/-- P + 2 wraps modulo 2^14 (section 2.5). -/
theorem test_ske :
    (run { base with p := 0o37777 } 0o01700100).map (fun t => t.p) = some 1 := by rfl

theorem test_ske_not :
    (run (put base [(0o2000, 0o40000000)]) 0o01702000).map (fun t => t.p) = some 0o1001 := by rfl

theorem test_skm :
    (run (put { base with ar := 0o12345670, br := 0o7700 } [(0o2000, 0o77775677)]) 0o03202000).map
        (fun t => t.p) =
      some 0o1002 := by rfl

theorem test_skm_not :
    (run (put { base with ar := 0o12345670, br := 0o7700 } [(0o2000, 0o77775577)]) 0o03202000).map
        (fun t => t.p) =
      some 0o1001 := by rfl

/-- 1 > -1. -/
theorem test_skg :
    (run (put { base with ar := 1 } [(0o2000, 0o77777777)]) 0o03502000).map (fun t => t.p) = some 0o1002 := by rfl

theorem test_skg_not :
    (run (put { base with ar := 0o40000000 } [(0o2000, 0o37777777)]) 0o03502000).map (fun t => t.p) = some 0o1001 := by rfl

theorem test_ska :
    (run (put { base with ar := 0o70 } [(0o2000, 7)]) 0o03402000).map (fun t => t.p) = some 0o1002 := by rfl

theorem test_ska_not :
    (run (put { base with ar := 0o70 } [(0o2000, 0o10)]) 0o03402000).map (fun t => t.p) = some 0o1001 := by rfl

theorem test_skb :
    (run (put { base with br := 0o70 } [(0o2000, 7)]) 0o02102000).map (fun t => t.p) = some 0o1002 := by rfl

theorem test_skb_not :
    (run (put { base with br := 0o70 } [(0o2000, 0o10)]) 0o02102000).map (fun t => t.p) = some 0o1001 := by rfl

theorem test_skn :
    (run (put base [(0o2000, 0o40000000)]) 0o02202000).map (fun t => t.p) = some 0o1002 := by rfl

theorem test_skn_not :
    (run (put base [(0o2000, 0o37777777)]) 0o02202000).map (fun t => t.p) = some 0o1001 := by rfl

theorem test_skr :
    (run (put base [(0o2000, 0)]) 0o02502000).map (fun t => (readWord t.mem 0o2000, t.p)) = some (0o77777777, 0o1002) := by rfl

theorem test_skr_not :
    (run (put base [(0o2000, 0o40000000)]) 0o02502000).map
        (fun t => (readWord t.mem 0o2000, t.p)) =
      some (0o37777777, 0o1001) := by rfl

/-- The source's own example (section 1.1). -/
theorem test_bru :
    (run (put { base with p := 0o100 } [(0o200, 0o40000010)]) 0o00140200).map (fun t => t.p) = some 0o10 := by rfl

/-- Q is formed with the old XR (section 2.6). -/
theorem test_brx :
    (run { base with xr := 0o77777775 } 0o21202000).map (fun t => (t.xr, t.p)) = some (0o77777776, 0o1775) := by rfl

theorem test_brx_not :
    (run { base with xr := 0o00077777 } 0o01202000).map (fun t => (t.xr, t.p)) = some (0o100000, 0o1001) := by rfl

/-- The link at absolute 45777B, the next fetch at relative 6000B. -/
theorem test_brm :
    (run (put { base with rel := 0o10000 } [(0o10100, 0o40045777)]) 0o01340100).map
        (fun t => (readWord t.mem 0o45777, t.p)) =
      some (0o1000, 0o6000) := by rfl

theorem test_brm_last :
    (run base 0o01337777).map (fun t => (readWord t.mem 0o37777, t.p)) = some (0o1000, 0) := by rfl

/-- Bits 0 to 9 of D are dropped. -/
theorem test_brr :
    (run (put base [(0o2000, 0o40041000)]) 0o02002000).map (fun t => t.p) = some 0o1001 := by rfl

theorem test_nop :
    (run { base with p := 0o37777 } 0o00500000).map (fun t => t.p) = some 0 := by rfl

/-- Nested, and the link is the address of the EXU (section 2.9). -/
theorem test_exu :
    (run (put base [(0o2000, 0o00602001), (0o2001, 0o01303000)]) 0o00602000).map
        (fun t => (readWord t.mem 0o3000, t.p)) =
      some (0o1000, 0o3001) := by rfl

theorem test_exu_trap :
    (run (reload base [(0o2000, 0)]) 0o00602000).map
        (fun t => (readWord t.mem 2, t.p, t.events)) =
      some (0o1000, 3, [.trap .halt]) := by rfl

/-- The low 14 bits wrap, bit 9 stays. -/
theorem test_eax :
    (run { base with xr := 0o40001 } 0o24037777).map (fun t => (t.xr, t.p)) = some (0o40000, 0o1001) := by rfl

theorem test_eax_absolute :
    (run (put base [(0o100, 0o41234567)]) 0o04040100).map (fun t => (t.xr, t.p)) = some (0o34567, 0o1001) := by rfl

/-- The link under the new REL (section 2.9). -/
theorem test_hlt :
    (run (put { base with rel := 0o4000, bound := 0o10, ioctl := 7 } [(0o20, 0o2000), (0o21, 0o30000)]) 0o00001234).map
        (fun t => (t.rel, t.bound, t.ioctl, readWord t.mem 0o2002, t.p)) =
      some (0o2000, 0o30000, 0, 0o1000, 3) := by rfl

theorem test_illegal42 :
    (run (reload base []) 0o04200000).map
        (fun t => (readWord t.mem 2, t.p, t.events)) =
      some (0o1000, 3, [.trap .illegalInstruction]) := by rfl

theorem test_illegal44 :
    (run (reload base []) 0o04400000).map
        (fun t => (readWord t.mem 2, t.p, t.events)) =
      some (0o1000, 3, [.trap .illegalInstruction]) := by rfl

theorem test_illegal50 :
    (run (reload base []) 0o05000000).map
        (fun t => (readWord t.mem 2, t.p, t.events)) =
      some (0o1000, 3, [.trap .illegalInstruction]) := by rfl

theorem test_illegal60 :
    (run (reload base []) 0o07737777).map
        (fun t => (readWord t.mem 2, t.p, t.events)) =
      some (0o1000, 3, [.trap .illegalInstruction]) := by rfl

/-- The start of the table of section 2.7. -/
def shiftStart : State := { base with ar := 0o40000001, br := 0o20000003 }

theorem test_lcy :
    (run shiftStart 0o03100001).map (fun t => (t.ar, t.br, t.p)) = some (0o00000002, 0o40000007, 0o1001) := by rfl

theorem test_lcy_63 :
    (run shiftStart 0o03100077).map (fun t => (t.ar, t.br)) = some (0o00120000, 0o00340000) := by decide +kernel

theorem test_lsh :
    (run shiftStart 0o03100401).map (fun t => (t.ar, t.br, t.p)) = some (0o00000002, 0o40000006, 0o1001) := by rfl

theorem test_lsh_23 :
    (run shiftStart 0o03100427).map (fun t => (t.ar, t.br)) = some (0o50000001, 0o40000000) := by rfl

theorem test_rsh :
    (run shiftStart 0o03101001).map (fun t => (t.ar, t.br, t.p)) = some (0o60000000, 0o50000001, 0o1001) := by rfl

theorem test_rsh_63 :
    (run shiftStart 0o03101077).map (fun t => (t.ar, t.br)) = some (0o77777777, 0o77777777) := by decide +kernel

theorem test_lrsh :
    (run shiftStart 0o03101401).map (fun t => (t.ar, t.br, t.p)) = some (0o20000000, 0o50000001, 0o1001) := by rfl

theorem test_lrsh_23 :
    (run shiftStart 0o03101427).map (fun t => (t.ar, t.br)) = some (0o00000001, 0o00000002) := by rfl

theorem test_rcy :
    (run shiftStart 0o03102001).map (fun t => (t.ar, t.br, t.p)) = some (0o60000000, 0o50000001, 0o1001) := by rfl

theorem test_rcy_63 :
    (run shiftStart 0o03102077).map (fun t => (t.ar, t.br)) = some (0o00003400, 0o00001200) := by decide +kernel

/-- Q = 405B: LSH 5, chosen at run time. -/
theorem test_shift :
    (run { base with ar := 1, xr := 5 } 0o23100400).map (fun t => (t.ar, t.br, t.p)) = some (0o40, 0, 0o1001) := by rfl

theorem test_shift_indirect :
    (run (put shiftStart [(0o100, 0o2001)]) 0o03140100).map
        (fun t => (t.ar, t.br, t.p)) =
      some (0o60000000, 0o50000001, 0o1001) := by rfl

theorem test_shift_trap_5 :
    (run (reload { base with ar := 1, br := 2 } []) 0o03102403).map
        (fun t => (t.ar, t.br, readWord t.mem 2, t.p, t.events)) =
      some (1, 2, 0o1000, 3, [.trap .illegalShift]) := by rfl

theorem test_shift_trap_7 :
    (run (reload { base with ar := 1, br := 2 } []) 0o03103400).map
        (fun t => (t.ar, t.br, readWord t.mem 2, t.p, t.events)) =
      some (1, 2, 0o1000, 3, [.trap .illegalShift]) := by rfl

theorem test_xca :
    (run { base with ar := 0o1000 } 0o01600003).map (fun t => (t.ar, t.bound, t.p)) = some (0o40000, 0o1000, 0o1001) := by rfl

theorem test_xca_mode :
    (run { base with ar := 0o4000000, mode := 0o123 } 0o01600000).map
        (fun t => (t.ar, t.mode, t.sched)) =
      some (0o123, 0o4000000, true) := by rfl

theorem test_cca :
    (run { base with rel := 0o2000 } 0o01600401).map (fun t => (t.ar, t.rel, t.p)) = some (0o2000, 0o2000, 0o1001) := by rfl

theorem test_cca_ioctl :
    (run { base with ar := 7, ioctl := 0o55 } 0o01600402).map (fun t => (t.ar, t.ioctl)) = some (0o55, 0o55) := by rfl

/-- The start of the rows of section 2.8. -/
def changeStart : State := { base with ar := 0o11111111, br := 0o22222222, xr := 0o33333333 }

theorem test_clab :
    (run changeStart 0o01601000).map (fun t => (t.ar, t.br, t.xr, t.p)) = some (0, 0, 0o33333333, 0o1001) := by rfl

theorem test_cla :
    (run changeStart 0o01601400).map (fun t => (t.ar, t.br, t.xr, t.p)) = some (0, 0o22222222, 0o33333333, 0o1001) := by rfl

theorem test_clb :
    (run changeStart 0o01602000).map (fun t => (t.ar, t.br, t.xr, t.p)) = some (0o11111111, 0, 0o33333333, 0o1001) := by rfl

theorem test_clx :
    (run changeStart 0o01602400).map (fun t => (t.ar, t.br, t.xr, t.p)) = some (0o11111111, 0o22222222, 0, 0o1001) := by rfl

theorem test_cab :
    (run changeStart 0o01603000).map
        (fun t => (t.ar, t.br, t.xr, t.p)) =
      some (0o11111111, 0o11111111, 0o33333333, 0o1001) := by rfl

theorem test_cba :
    (run changeStart 0o01603400).map
        (fun t => (t.ar, t.br, t.xr, t.p)) =
      some (0o22222222, 0o22222222, 0o33333333, 0o1001) := by rfl

theorem test_xab :
    (run changeStart 0o01604000).map
        (fun t => (t.ar, t.br, t.xr, t.p)) =
      some (0o22222222, 0o11111111, 0o33333333, 0o1001) := by rfl

theorem test_cbx :
    (run changeStart 0o01604400).map
        (fun t => (t.ar, t.br, t.xr, t.p)) =
      some (0o11111111, 0o22222222, 0o22222222, 0o1001) := by rfl

theorem test_cxb :
    (run changeStart 0o01605000).map
        (fun t => (t.ar, t.br, t.xr, t.p)) =
      some (0o11111111, 0o33333333, 0o33333333, 0o1001) := by rfl

theorem test_xxb :
    (run changeStart 0o01605400).map
        (fun t => (t.ar, t.br, t.xr, t.p)) =
      some (0o11111111, 0o33333333, 0o22222222, 0o1001) := by rfl

theorem test_cxa :
    (run changeStart 0o01606000).map
        (fun t => (t.ar, t.br, t.xr, t.p)) =
      some (0o33333333, 0o22222222, 0o33333333, 0o1001) := by rfl

theorem test_cax :
    (run changeStart 0o01606400).map
        (fun t => (t.ar, t.br, t.xr, t.p)) =
      some (0o11111111, 0o22222222, 0o11111111, 0o1001) := by rfl

theorem test_xxa :
    (run changeStart 0o01607000).map
        (fun t => (t.ar, t.br, t.xr, t.p)) =
      some (0o33333333, 0o22222222, 0o11111111, 0o1001) := by rfl

theorem test_cna :
    (run { base with ar := 0o77777775 } 0o01607400).map (fun t => (t.ar, t.p)) = some (3, 0o1001) := by rfl

theorem test_cna_least :
    (run { base with ar := 0o40000000 } 0o01607400).map (fun t => (t.ar, t.p)) = some (0o40000000, 0o1001) := by rfl

/-- Q = 3400B: CBA, chosen at run time. -/
theorem test_rch :
    (run { changeStart with xr := 0o375 } 0o21603003).map
        (fun t => (t.ar, t.br, t.xr, t.p)) =
      some (0o22222222, 0o22222222, 0o375, 0o1001) := by rfl

theorem test_upot :
    (run { base with ar := 0o17, br := 0o12345670 } 0o01400000).map
        (fun t => (t.events, t.p)) =
      some ([.output 0o17 0o12345670], 0o1001) := by rfl

/-- The value UPIN draws is free: whatever it is, it is in B and in the event. -/
theorem test_upin :
    (run { base with ar := 0o17 } 0o01500000).map (fun t => (t.br, t.draws, t.events, t.p)) =
      some (Config.deviceInput 0 0o17, 1, [.input 0o17 (Config.deviceInput 0 0o17)], 0o1001) := by rfl

theorem test_str :
    (run base 0o04100203).map (fun t => (t.events, t.p)) = some ([.strobe 0o203], 0o1001) := by rfl

theorem test_pro :
    (run { base with mode := 0o12345670, prot := 2 } 0o04101005).map
        (fun t => (t.mode, t.prot, t.sched, t.events, t.p)) =
      some (0o16345670, 7, false, [.protect 5], 0o1001) := by rfl

theorem test_pro_not_scheduling :
    (run { base with mode := 0o16345670, prot := 2, sched := false } 0o04101005).map
        (fun t => (t.mode, t.prot, t.sched)) =
      some (0o12345670, 7, false) := by rfl

theorem test_upr :
    (run { base with mode := 0o4000000, prot := 7, sched := false } 0o04100400).map
        (fun t => (t.prot, t.sched, t.mode, t.events, t.p)) =
      some (0, true, 0o4000000, [.unprotect], 0o1001) := by rfl

/-- The parameter 377B is ignored. -/
theorem test_upr_off :
    (run { base with mode := 0o73777777, prot := 7 } 0o04100777).map (fun t => (t.prot, t.sched)) = some (0, false) := by rfl

/-- Q = 405B: UPR, chosen at run time. -/
theorem test_ups :
    (run { base with xr := 0o37400 } 0o24101005).map
        (fun t => (t.sched, t.events, t.p)) =
      some (false, [.unprotect], 0o1001) := by rfl

/-- Sub-case 3 has no meaning, in the word or at run time (section 2.10; 93_implementation_defined.md U1). -/
theorem test_ups_undefined :
    step (base.withFetchWord 24 0o04101400) = .refused .undefinedSignal ∧
    step ({ base with xr := 0o400 }.withFetchWord 24 0o24101000) = .refused .undefinedSignal := ⟨by rfl, by rfl⟩

/-- POP_MARK = 4000B; X, I and W are not used (section 2.11). -/
theorem test_pop :
    (run { base with p := 0o5000 } 0o37740000).map (fun t => (readWord t.mem 0, t.p)) = some (0o5000, 0o177) := by rfl

theorem test_pop_indirect_mark :
    (run (put { base with params := { Params.atReset with popMark := .indirect }, rel := 0o10000 } []) 0o10500000).map
        (fun t => (readWord t.mem 0o10000, t.p)) =
      some (0o41000, 0o105) := by rfl

/-- Start (section 2.12). -/
theorem test_start :
    (match step (put { base with p := 0o12345, ioctl := 7, arrivals := [some .start] } [(0o20, 0o1000), (0o21, 0o40000)]) with
      | .next t => some (t.rel, t.bound, t.ioctl, readWord t.mem 0o1002, t.p)
      | _ => none) = some (0o1000, 0o40000, 0, 0o12345, 3) := by rfl

/-- A Start that comes as a HLT traps is taken after its trap sequence, and saves P = 3 (60_exceptions.md R235). -/
theorem test_start_after_trap :
    (match Sys2Proof.core.run 2 (reload { base with arrivals := [none, some .start] } []) with
      | .next t => some (readWord t.mem 2, t.p, t.events)
      | _ => none) = some (3, 3, [.trap .start, .trap .halt]) := by rfl

/-- Post-indexing, pre-indexing, and an absolute word with LW_WIDTH = 18 (section 2.2). -/
theorem test_effective_address :
    ea (put { base with xr := 5 } [(0o100, 0o20002000)]) ⟨false, true, 0o100⟩ = .done 0o2005 ∧
    ea (put { base with xr := 5 } [(0o105, 0o2000)]) ⟨true, true, 0o100⟩ = .done 0o2000 ∧
    ea (put { base with params := { Params.atReset with lwExtra := 4 } } [(0o100, 0o41234567)]) ⟨false, true, 0o100⟩ =
      .done 0o40234567 := ⟨rfl, rfl, rfl⟩

/-- A location at MEM_WORDS does not exist (20_memory.md R57). -/
theorem test_absent_location :
    step (put { base with params := { Params.atReset with memWords := 0o2000 } } [(0o1000, 0o03702000)]) =
      .fault (.absentLocation 0o2000) := by rfl

/-! ## For each statement with hypotheses: a state and operands that meet them, at the boundaries of its clauses -/

/-- Relative address 2000B holds 7, 100B an absolute indirect word for location 5000B, which holds 123B. -/
def two : State := put base [(0o2000, 7), (0o100, 0o40005000), (0o5000, 0o123)]

/-- The address parts `2000B` and `* 100B`. -/
def near : Operand := .direct 0o2000
def far : Operand := ⟨false, true, 0o100⟩

/-- An operand word that exists, at a relative and at an absolute address, stores allowed. -/
theorem two_operands :
    ea two near = .done 0o2000 ∧ contents two 0o2000 = .ok 7 ∧ (0o2000#24).toNat < two.bound.toNat ∧
    location two 0o2000 < two.params.memWords ∧
    ea two far = .done 0o40005000 ∧ contents two 0o40005000 = .ok 0o123 ∧ isAbs 0o40005000 = true ∧
    location two 0o40005000 < two.params.memWords := by
  refine ⟨rfl, rfl, ?_, ?_, rfl, rfl, rfl, ?_⟩ <;> decide

theorem witness_EncodedInstructionDecodes :
    (Instr.illegal60 0o60 ⟨true, true, 0o37777⟩).wellFormed = true ∧ (Instr.cna 0o7777).wellFormed = true ∧
    (Instr.shift ⟨false, true, 0⟩).wellFormed = true := by decide

theorem witness_PopBitAndOperationCodeClassify :
    fieldPop 0o17777777#24 = true ∧ fieldPop 0o04137777#24 = false ∧ (fieldOp 0o04137777#24).toNat = 0o41 ∧
    fieldPop 0o04200000#24 = false ∧ (fieldOp 0o04200000#24).toNat = 0o42 := by decide

theorem witness_EffectiveAddressIsTheLoop :
    let u : State := { two with ar := 1, bound := 0, params := { two.params with popMark := .indirect, relSrc := 1 } }
    u.params ≠ two.params ∧ u.xr = two.xr ∧ u.rel = two.rel ∧ u.mem = two.mem ∧
    u.params.lwExtra = two.params.lwExtra ∧ u.params.memWords = two.params.memWords := by decide

theorem witness_DirectAndIndexedForms :
    (⟨true, false, 0o37777⟩ : Operand).i = false ∧ ea { base with xr := 1 } ⟨true, false, 0o37777⟩ = .done 0 := by decide

theorem witness_EffectiveAddressKinds :
    ea base (.direct 0o37777) = .done 0o37777 ∧ isAbs 0o37777 = false ∧
    ea (put base [(0o100, 0o77777777)]) far = .done 0o57777777 ∧ isAbs 0o57777777 = true := by decide

/-- An indirect word that points at itself. -/
def loop : State := put base [(0o100, 0o00040100)]

theorem loop_endless : ea loop far = .endless := by
  have pass : ∀ n, addressLoop n loop far = .endless := by
    intro n
    induction n with
    | zero => rfl
    | succ n ih =>
      rw [addressLoop_indirect n loop rfl, show contents loop (passAddress loop far) = .ok 0o00040100 from rfl]
      exact ih
  exact pass addressPasses

theorem witness_EndlessIffChainNeverEnds :
    ea loop far = .endless ∧ contents loop (passAddress loop far) = .ok 0o00040100 ∧
    (0o00040100#24).getLsbD 23 = false ∧ operandOf 0o00040100 = far ∧ ea two far = .done 0o40005000 :=
  ⟨loop_endless, rfl, rfl, rfl, rfl⟩

theorem witness_EndlessChainHangsEveryInstruction :
    (Instr.nop far).addressPart = some far ∧ (Instr.hlt far).addressPart = some far ∧ ea loop far = .endless :=
  ⟨rfl, rfl, loop_endless⟩

theorem witness_HungMachineStaysAsItIs : ({ base with hung := true }).hung = true := rfl

theorem witness_ContentsReadsTheLocation :
    let s : State := { base with rel := 0o77777777, params := { Params.atReset with memWords := 0o40000 } }
    isAbs 0o40037777 = true ∧ absLoc 0o40037777 < s.params.memWords ∧
    isAbs 0o37777 = false ∧ ((0o37777#24).toNat + s.rel.toNat) % 2 ^ 24 < s.params.memWords ∧
    isAbs 1 = false ∧ ((1#24).toNat + s.rel.toNat) % 2 ^ 24 = 0 := by decide

theorem witness_WordReadAfterWrite : two.mem.wf ∧ 0o1777 ≠ 0o2000 ∧ 0o2001 ≠ 0o2000 := by
  refine ⟨?_, ?_, ?_⟩ <;> decide

theorem witness_LoadsPutTheOperandInTheirRegister :
    ea two near = .done 0o2000 ∧ contents two 0o2000 = .ok 7 ∧ ea two far = .done 0o40005000 ∧
    contents two 0o40005000 = .ok 0o123 := ⟨rfl, rfl, rfl, rfl⟩

/-- The last relative address the bound admits, and an absolute address under a bound of 0. -/
theorem witness_StoresPutTheirRegisterAtTheAddress :
    let s : State := { two with bound := 0o2001 }
    ea s near = .done 0o2000 ∧ (0o2000#24).toNat < s.bound.toNat ∧ location s 0o2000 < s.params.memWords ∧ s.mem.wf ∧
    (let u : State := { two with bound := 0 }
     ea u far = .done 0o40005000 ∧ isAbs 0o40005000 = true ∧ location u 0o40005000 < u.params.memWords) := by
  refine ⟨rfl, ?_, ?_, ?_, rfl, rfl, ?_⟩ <;> decide

theorem witness_ExchangeSwapsMemoryAndA :
    ea two near = .done 0o2000 ∧ contents two 0o2000 = .ok 7 ∧ (0o2000#24).toNat < two.bound.toNat ∧
    ea two far = .done 0o40005000 ∧ contents two 0o40005000 = .ok 0o123 ∧ isAbs 0o40005000 = true :=
  ⟨rfl, rfl, by decide, rfl, rfl, rfl⟩

theorem witness_MemoryIncrementAndAdd :
    let s : State := put { base with ar := 1 } [(0o2000, 0o77777777)]
    ea s near = .done 0o2000 ∧ contents s 0o2000 = .ok 0o77777777 ∧ (0o2000#24).toNat < s.bound.toNat :=
  ⟨rfl, rfl, by decide⟩

theorem witness_AddAndSubtractWrap :
    let s : State := put { base with ar := 0o77777777 } [(0o2000, 1)]
    ea s near = .done 0o2000 ∧ contents s 0o2000 = .ok 1 := ⟨rfl, rfl⟩

theorem witness_LogicalInstructionsAreBitwise :
    ea two near = .done 0o2000 ∧ contents two 0o2000 = .ok 7 := ⟨rfl, rfl⟩

/-- SKE and SKM skip, SKA and SKB do not; then the other way round. -/
theorem witness_EqualityAndMaskSkips :
    (let s : State := { two with ar := 7, br := 1 }
     ea s near = .done 0o2000 ∧ contents s 0o2000 = .ok 7 ∧ s.ar = 7 ∧ s.ar &&& s.br = 7 &&& s.br ∧
      s.ar &&& 7 ≠ 0 ∧ s.br &&& 7 ≠ 0) ∧
    (let s : State := { two with ar := 0o70, br := 0o10 }
     ea s near = .done 0o2000 ∧ contents s 0o2000 = .ok 7 ∧ s.ar ≠ 7 ∧ s.ar &&& s.br ≠ 7 &&& s.br ∧
      s.ar &&& 7 = 0 ∧ s.br &&& 7 = 0) :=
  ⟨⟨rfl, rfl, by decide, by decide, by decide, by decide⟩, ⟨rfl, rfl, by decide, by decide, by decide, by decide⟩⟩

/-- Equal, greater by one with opposite signs, and the least and the greatest negative word. -/
theorem witness_SignedSkips :
    (let s : State := put { base with ar := 0 } [(0o2000, 0o77777777)]
     ea s near = .done 0o2000 ∧ contents s 0o2000 = .ok 0o77777777 ∧ s.ar.toInt > (0o77777777#24).toInt) ∧
    (let s : State := put { base with ar := 0o40000000 } [(0o2000, 0o40000000)]
     ea s near = .done 0o2000 ∧ contents s 0o2000 = .ok 0o40000000 ∧ ¬ s.ar.toInt > (0o40000000#24).toInt ∧
      (0o40000000#24).toNat ≥ 2 ^ 23 ∧ ¬ (0o37777777#24).toNat ≥ 2 ^ 23) :=
  ⟨⟨rfl, rfl, by decide⟩, ⟨rfl, rfl, by decide, by decide, by decide⟩⟩

theorem witness_ReduceMemoryAndSkip :
    ea base near = .done 0o2000 ∧ contents base 0o2000 = .ok 0 ∧ (0o2000#24).toNat < base.bound.toNat ∧
    ((0#24) - 1).toInt < 0 ∧ ¬ ((0o40000000#24) - 1).toInt < 0 :=
  ⟨rfl, rfl, by decide, by decide, by decide⟩

theorem witness_BranchGoesToTheAddress :
    ea two near = .done 0o2000 ∧ ea two far = .done 0o40005000 := ⟨rfl, rfl⟩

/-- The tested bit becomes 1, and becomes 0. -/
theorem witness_IndexBranchCountsX :
    ea { base with xr := 0o37777 } near = .done 0o2000 ∧ ((0o37777#24) + 1).getLsbD 14 = true ∧
    ea { base with xr := 0o77777 } near = .done 0o2000 ∧ ((0o77777#24) + 1).getLsbD 14 = false :=
  ⟨rfl, by decide, rfl, by decide⟩

/-- The last relative address under the greatest bound it needs, and an absolute address. -/
theorem witness_MarkPlaceStoresItsAddress :
    ea base (.direct 0o37777) = .done 0o37777 ∧ (0o37777#24).toNat < base.bound.toNat ∧
    location base 0o37777 < base.params.memWords ∧
    ea two far = .done 0o40005000 ∧ isAbs 0o40005000 = true ∧ location two 0o40005000 < two.params.memWords := by
  refine ⟨rfl, ?_, ?_, rfl, rfl, ?_⟩ <;> decide

theorem witness_ReturnGoesAfterTheLink :
    let s : State := put base [(0o2000, 0o37777)]
    ea s near = .done 0o2000 ∧ contents s 0o2000 = .ok 0o37777 := ⟨rfl, rfl⟩

theorem witness_ReturnAfterMarkPlace :
    let t : State := { base with mem := writeWord base.mem 0o2000 0o1000, p := 0o2001 }
    base.mem.wf ∧ ea base near = .done 0o2000 ∧ exec (.brm near) base = .next t ∧ trapTaken base t = none ∧
    ea t near = .done 0o2000 := ⟨by decide, rfl, rfl, by decide, rfl⟩

theorem witness_ShiftRowsMoveThePair :
    0 = (0o400#14).toNat % 64 ∧ 63 = (0o477#14).toNat % 64 := by decide

/-- Kinds 0 and 4, counts 63 and 0. -/
theorem witness_ShiftKindComesFromTheAddress :
    ea base (.direct 0o77) = .done 0o77 ∧ (0o77#24).toNat / 2 ^ 8 % 8 ≤ 4 ∧ (0o77#24).toNat % 64 = 63 ∧
    ea base (.direct 0o2000) = .done 0o2000 ∧ (0o2000#24).toNat / 2 ^ 8 % 8 = 4 ∧ (0o2000#24).toNat % 64 = 0 := by
  refine ⟨rfl, ?_, ?_, rfl, ?_, ?_⟩ <;> decide

theorem witness_ControlRegisterRows :
    (0#14).toNat % 4 = 0 ∧ (1#14).toNat % 4 = 1 ∧ (2#14).toNat % 4 = 2 ∧ (0o377#14).toNat % 4 = 3 := by decide

theorem witness_RegisterChangeComesFromTheAddress :
    ea two near = .done 0o2000 ∧ ea two far = .done 0o40005000 := ⟨rfl, rfl⟩

theorem witness_NoOperationAndEffectiveAddressToX :
    ea { base with xr := 0o77777777 } (.direct 0) = .done 0 ∧ ea two far = .done 0o40005000 := ⟨rfl, rfl⟩

/-- 2000B holds EXU 2001B, 2001B holds LDA 2002B, 2002B holds 7; 2003B to 2005B hold SKE, BRU and BRM 2002B. -/
def executing : State :=
  put base [(0o2000, 0o00602001), (0o2001, 0o03702002), (0o2002, 7), (0o2003, 0o01702002), (0o2004, 0o00102002),
    (0o2005, 0o01302002)]

theorem witness_ExecuteRunsTheOperandWord :
    operandWord executing near = .done 0o00602001 ∧ operandWord executing (.direct 0o2001) = .done 0o03702002 :=
  ⟨rfl, rfl⟩

theorem witness_ExecuteCompletes :
    ea executing (.direct 0o2002) = .done 0o2002 ∧ contents executing 0o2002 = .ok 7 ∧
    (operandWord executing (.direct 0o2001) = .done 0o03702002 ∧ decodeWord 0o03702002 = .lda (.direct 0o2002)) ∧
    (operandWord executing (.direct 0o2003) = .done 0o01702002 ∧ decodeWord 0o01702002 = .ske (.direct 0o2002)) ∧
    (operandWord executing (.direct 0o2004) = .done 0o00102002 ∧ decodeWord 0o00102002 = .bru (.direct 0o2002)) ∧
    (operandWord executing (.direct 0o2005) = .done 0o01302002 ∧ decodeWord 0o01302002 = .brm (.direct 0o2002) ∧
      (0o2002#24).toNat < executing.bound.toNat ∧ location executing 0o2002 < executing.params.memWords) ∧
    (operandWord executing near = .done 0o00602001 ∧ decodeWord 0o00602001 = .exu (.direct 0o2001)) := by
  refine ⟨rfl, rfl, ⟨rfl, rfl⟩, ⟨rfl, rfl⟩, ⟨rfl, rfl⟩, ⟨rfl, rfl, ?_, ?_⟩, rfl, rfl⟩ <;> decide

/-- EXU 1000B at 1000B executes itself (section 2.9). -/
theorem witness_EndlessExecuteChainHangs :
    ∀ _k : Nat, ∃ t, operandWord (put base [(0o1000, 0o00601000)]) (.direct 0o1000) = .done t ∧
      decodeWord t = .exu (.direct 0o1000) := fun _ => ⟨0o00601000, rfl, rfl⟩

theorem witness_OutputAndInput : ea two near = .done 0o2000 := rfl

theorem witness_SignalRows : (0#8).toNat = (0#14).toNat % 256 ∧ (0o377#8).toNat = (0o377#14).toNat % 256 := by decide

theorem witness_UnprotectRestoresScheduleMode : ∃ t, exec (.pro 0o1005) base = .next t ∧ t.sched = false := ⟨_, rfl, rfl⟩

/-- Sub-cases 0 and 2, and below 3. -/
theorem witness_SignalComesFromTheAddress :
    ea base (.direct 0) = .done 0 ∧ (0#24).toNat / 2 ^ 8 % 4 ≠ 3 ∧
    ea base (.direct 0o1377) = .done 0o1377 ∧ (0o1377#24).toNat / 2 ^ 8 % 4 ≠ 3 := ⟨rfl, by decide, rfl, by decide⟩

theorem witness_UndefinedSignalIsRefused :
    ea base (.direct 0o1400) = .done 0o1400 ∧ (0o1400#24).toNat / 2 ^ 8 % 4 = 3 ∧
    ea base (.direct 0o1777) = .done 0o1777 ∧ (0o1777#24).toNat / 2 ^ 8 % 4 = 3 := ⟨rfl, by decide, rfl, by decide⟩

theorem witness_PopStoresItsLinkAndVectors :
    let s : State := { base with bound := 1, rel := 0o17777777 }
    0 < s.bound.toNat ∧ s.rel.toNat < s.params.memWords := by decide

theorem witness_TrapSequenceLeaves : (reload base []).trapReady ∧ (reload base []).mem.wf := by
  refine ⟨?_, ?_⟩ <;> decide

/-- Kinds 5 and 7. -/
theorem witness_TrapInstructionsTakeTheTrap :
    (reload base []).trapReady ∧ ea (reload base []) (.direct 0o2400) = .done 0o2400 ∧
    5 ≤ (0o2400#24).toNat / 2 ^ 8 % 8 ∧ ea (reload base []) (.direct 0o3777) = .done 0o3777 ∧
    5 ≤ (0o3777#24).toNat / 2 ^ 8 % 8 := by
  refine ⟨?_, rfl, ?_, rfl, ?_⟩ <;> decide

/-- The first relative address the bound refuses, and a bound of 0. -/
theorem witness_StoreProtectionTraps :
    (let s : State := reload { base with bound := 0o2000 } []
     s.trapReady ∧ ea s near = .done 0o2000 ∧ isAbs 0o2000 = false ∧ s.bound.toNat ≤ (0o2000#24).toNat ∧
      location s 0o2000 < s.params.memWords) ∧
    (let s : State := reload { base with bound := 0 } []
     s.trapReady ∧ s.bound = 0) := by
  refine ⟨⟨?_, rfl, ?_, ?_, ?_⟩, ?_, rfl⟩ <;> decide

theorem witness_TrapsArePrecise :
    let s : State := reload base []
    exec (.hlt near) s = .next (s.trapped .halt) ∧ trapTaken s (s.trapped .halt) = some .halt :=
  ⟨rfl, by decide⟩

theorem witness_InstructionsThatNeverTrap :
    (Instr.bru near).neverTraps = true ∧ (∃ t, exec (.bru near) base = .next t) ∧
    (ea base near = .done 0o2000 ∧ (0o2000#24).toNat / 2 ^ 8 % 8 ≤ 4 ∧ ∃ t, exec (.shift near) base = .next t) ∧
    operandWord executing near = .done 0o00602001 := ⟨rfl, ⟨_, rfl⟩, ⟨rfl, by decide, _, rfl⟩, rfl⟩

theorem witness_OnlyStops :
    (let s : State := { base with params := { Params.atReset with memWords := 0o2000 } }
     exec (.lda near) s = .fault (.absentLocation 0o2000) ∧ s.params.memWords ≤ 0o2000) ∧
    exec (.ups (.direct 0o1400)) base = .refused .undefinedSignal ∧
    step { base with params := { Params.atReset with memWords := 0o1000 } } = .fault (.absentLocation 0o1000) :=
  ⟨⟨rfl, by decide⟩, rfl, rfl⟩

/-- Stepped by 1, and by 2. -/
theorem witness_InstructionsEndByStepping :
    (∃ t, exec (.ske near) base = .next t ∧ trapTaken base t = none ∧ t.p = base.p + 2) ∧
    (∃ t, exec (.lda near) base = .next t ∧ trapTaken base t = none ∧ t.p = base.p + 1) ∧
    ea base near ≠ .endless ∧ (Instr.ske near).isExecute = false ∧ (Instr.ske near).assignsP = false ∧
    (Instr.lda near).isExecute = false ∧ (Instr.lda near).assignsP = false := by
  refine ⟨⟨_, rfl, ?_, rfl⟩, ⟨_, rfl, ?_, rfl⟩, ?_, rfl, rfl, rfl, rfl⟩
  all_goals decide

theorem witness_CentralRegistersWrittenOnlyBy :
    (∃ t, exec (.lda near) two = .next t ∧ t.ar ≠ two.ar) ∧ (∃ t, exec (.ldb near) two = .next t ∧ t.br ≠ two.br) ∧
    ∃ t, exec (.ldx near) two = .next t ∧ t.xr ≠ two.xr := by
  refine ⟨⟨_, rfl, ?_⟩, ⟨_, rfl, ?_⟩, ⟨_, rfl, ?_⟩⟩
  all_goals decide

theorem witness_ControlRegistersWrittenOnlyBy :
    (∃ t, exec (.xca 1) { base with ar := 1 } = .next t ∧ t.rel ≠ base.rel) ∧
    (∃ t, exec (.xca 0) { base with ar := 1 } = .next t ∧ t.mode ≠ base.mode) ∧
    ∃ t, exec (.pro 0o1005) base = .next t ∧ t.sched ≠ base.sched := by
  refine ⟨⟨_, rfl, ?_⟩, ⟨_, rfl, ?_⟩, ⟨_, rfl, ?_⟩⟩
  all_goals decide

theorem witness_MemoryChangesOnlyWhereStored :
    (∃ t, exec (.lda near) two = .next t ∧ trapTaken two t = none) ∧ (Instr.lda near).storesMemory = false ∧
    (∃ t, exec (.sta near) two = .next t ∧ trapTaken two t = none) ∧ (Instr.sta near).storesMemory = true ∧
    (Instr.sta near).addressPart = some near ∧ ea two near = .done 0o2000 ∧
    ∃ t, exec (.pop 0 near) two = .next t ∧ trapTaken two t = none := by
  refine ⟨⟨_, rfl, ?_⟩, rfl, ⟨_, rfl, ?_⟩, rfl, rfl, rfl, ⟨_, rfl, ?_⟩⟩
  all_goals decide

/-- LDA 2000B at relative 1000B, under REL = 1000B; and a word placed in the memory of the base state. -/
theorem witness_StepRunsTheDecodedInstruction :
    let s : State := put { base with rel := 0o1000 } [(0o2000, 0o03702000)]
    s.hung = false ∧ s.nextMove = none ∧ ({ s with arrivals := [none, some .start] } : State).nextMove = none ∧ 0o2000 = (s.p.toNat + s.rel.toNat) % 2 ^ 24 ∧ 0o2000 < s.params.memWords ∧
    (Instr.lda near).wellFormed = true ∧
    decode [readByte s.mem (3 * 0o2000), readByte s.mem (3 * 0o2000 + 1), readByte s.mem (3 * 0o2000 + 2)] =
      .ok (.lda near, []) ∧
    base.mem.wf ∧ (base.p.toNat + base.rel.toNat) % 2 ^ 24 < base.params.memWords := by
  refine ⟨rfl, rfl, rfl, ?_, ?_, rfl, rfl, ?_, ?_⟩ <;> decide

theorem witness_OutsideMovesComeBetweenInstructions :
    let s (m : Arrival) : State := { base with arrivals := [some m, none] }
    (∀ m, (s m).hung = false ∧ (s m).arrivals = some m :: [none]) ∧ (s .start).trapReady ∧
    2 ^ 22 - 1 < (s (.write (2 ^ 22 - 1) 1)).params.memWords := by
  refine ⟨fun _ => ⟨rfl, rfl⟩, ?_, ?_⟩ <;> decide

/-- A LDA and then a write; a HLT and then a Start; two PROs with schedule mode turned on between them. -/
theorem witness_OutsideMovesFollowAnyInstruction :
    (let s : State := put { base with arrivals := [none, some (.write 0 1)] } [(0o1000, 0o03702000)]
     s.hung = false ∧ fetch s = .ok 0o03702000 ∧ s.arrivals = none :: some (.write 0 1) :: [] ∧
      ∃ t, exec (decodeWord 0o03702000) { s with arrivals := [some (.write 0 1)] } = .next t ∧ t.hung = false) ∧
    (let s : State := reload { base with arrivals := [none, some .start] } []
     s.hung = false ∧ fetch s = .ok 0 ∧ s.arrivals = none :: some .start :: [] ∧ s.mem.wf ∧
      ∃ t, exec (decodeWord 0) { s with arrivals := [some .start] } = .next t ∧ trapTaken s t = some .halt ∧ t.trapReady) ∧
    (let s : State := put { base with arrivals := [none, some (.schedule true), none] }
      [(0o1000, 0o04101005), (0o1001, 0o04101005)]
     s.hung = false ∧ fetch s = .ok 0o04101005 ∧ s.arrivals = none :: some (.schedule true) :: none :: [] ∧
      decodeWord 0o04101005 = .pro 0o1005 ∧ fetch { s with p := s.p + 1 } = .ok 0o04101005) := by
  refine ⟨⟨rfl, rfl, rfl, _, rfl, rfl⟩, ⟨rfl, rfl, rfl, ?_, _, rfl, ?_, ?_⟩, rfl, rfl, rfl, rfl, rfl⟩ <;> decide

/-- A step of each kind: an instruction that stores, a trap, a move of the outside world. -/
theorem witness_StepKeepsTheInvariant :
    (put base [(0o1000, 0o00702000)]).inv ∧ (reload base []).inv ∧
    (∃ t, step (put base [(0o1000, 0o00702000)]) = .next t) ∧ (∃ t, step (reload base []) = .next t) ∧
    ∃ t, step { base with arrivals := [some (.write 0 1)] } = .next t := by
  refine ⟨?_, ?_, ⟨_, rfl⟩, ⟨_, rfl⟩, ⟨_, rfl⟩⟩ <;> decide

theorem witness_HaltEndsTheRun :
    let s : State := reload base []
    s.hung = false ∧ s.nextMove = none ∧ fetch s = .ok 0 ∧ decodeWord 0 = .hlt (.direct 0) ∧ ea s (.direct 0) = .done 0 ∧
    s.trapReady := by
  refine ⟨rfl, rfl, rfl, rfl, rfl, ?_⟩
  decide

end Sys2Proof.Tests
end

/-! Data transfer (41_data_transfer.md): what an instruction that reads D does where Q and the word there exist, and the three
loads. -/

namespace Sys2Proof.Machine

/-- D is the word at Q, where both exist (40_execution_cycle.md R114). -/
theorem operandWord_done {s : State} {a : Operand} {q d : Word} (hq : ea s a = .done q) (hd : contents s q = .ok d) :
    operandWord s a = .done d := by
  simp [operandWord, hq, hd]

/-- An instruction whose formula names D completes with its body's state and ending, where Q and the word there exist. -/
theorem withOperand_done {s : State} {a : Operand} {q d : Word} (hq : ea s a = .done q) (hd : contents s q = .ok d)
    (body : Word → State × Ending) : withOperand s a body = .next ((body d).1.endWith (body d).2) := by
  simp [withOperand, operandWord_done hq hd]

/-- The meaning of LDA (R130). -/
theorem exec_lda_eq (a : Operand) (s : State) :
    exec (.lda a) s = withOperand s a fun d => ({ s with ar := d }, .step) := rfl

/-- The meaning of LDB (R131). -/
theorem exec_ldb_eq (a : Operand) (s : State) :
    exec (.ldb a) s = withOperand s a fun d => ({ s with br := d }, .step) := rfl

/-- The meaning of LDX (R132). -/
theorem exec_ldx_eq (a : Operand) (s : State) :
    exec (.ldx a) s = withOperand s a fun d => ({ s with xr := d }, .step) := rfl

/-- Settles O14: each load is `withOperand` over its own register, which where Q and the word there exist ends by stepping P. -/
theorem loadsPutTheOperandInTheirRegister : Obligations.LoadsPutTheOperandInTheirRegister := by
  intro s a q d hq hd
  have lda : exec (.lda a) s = .next { s with ar := d, p := s.p + 1 } := (exec_lda_eq a s).trans (withOperand_done hq hd _)
  have ldb : exec (.ldb a) s = .next { s with br := d, p := s.p + 1 } := (exec_ldb_eq a s).trans (withOperand_done hq hd _)
  have ldx : exec (.ldx a) s = .next { s with xr := d, p := s.p + 1 } := (exec_ldx_eq a s).trans (withOperand_done hq hd _)
  exact ⟨lda, ldb, ldx, rfl, rfl, rfl⟩

end Sys2Proof.Machine

/-! Arithmetic and logical (42_arithmetic_logical.md): the three bitwise instructions. -/

namespace Sys2Proof.Machine

/-- The meaning of ETR (R144). -/
theorem exec_etr_eq (a : Operand) (s : State) :
    exec (.etr a) s = withOperand s a fun d => ({ s with ar := s.ar &&& d }, .step) := rfl

/-- The meaning of MRG (R145). -/
theorem exec_mrg_eq (a : Operand) (s : State) :
    exec (.mrg a) s = withOperand s a fun d => ({ s with ar := s.ar ||| d }, .step) := rfl

/-- The meaning of EOR (R146). -/
theorem exec_eor_eq (a : Operand) (s : State) :
    exec (.eor a) s = withOperand s a fun d => ({ s with ar := s.ar ^^^ d }, .step) := rfl

/-- An instruction whose formula puts a function of D in A, and which ends by stepping P, changes A and P alone where Q and the word
there exist. -/
theorem withOperand_setsA {s : State} {a : Operand} {q d : Word} (hq : ea s a = .done q) (hd : contents s q = .ok d)
    (f : Word → Word) :
    (withOperand s a fun d => ({ s with ar := f d }, .step)) = .next { s with ar := f d, p := s.p + 1 } :=
  withOperand_done hq hd _

/-- Settles O19: each instruction is `withOperand` over A with its own bitwise operation, which where Q and the word there exist
ends by stepping P. -/
theorem logicalInstructionsAreBitwise : Obligations.LogicalInstructionsAreBitwise := by
  intro s a q d hq hd
  have etr : exec (.etr a) s = .next { s with ar := s.ar &&& d, p := s.p + 1 } :=
    (exec_etr_eq a s).trans (withOperand_setsA hq hd (s.ar &&& ·))
  have mrg : exec (.mrg a) s = .next { s with ar := s.ar ||| d, p := s.p + 1 } :=
    (exec_mrg_eq a s).trans (withOperand_setsA hq hd (s.ar ||| ·))
  have eor : exec (.eor a) s = .next { s with ar := s.ar ^^^ d, p := s.p + 1 } :=
    (exec_eor_eq a s).trans (withOperand_setsA hq hd (s.ar ^^^ ·))
  exact ⟨etr, mrg, eor, rfl, rfl, rfl⟩

end Sys2Proof.Machine

/-! Skip (43_skip.md): an instruction that tests D and changes nothing but P, and the four of them that compare for equality. -/

namespace Sys2Proof.Machine

/-- SKM's test: equal where the mask has ones (R151). -/
theorem equalUnder_iff (m a b : Word) : equalUnder m a b = true ↔ a &&& m = b &&& m := by
  simp [equalUnder]

/-- The test of SKA and SKB: no one bit in common (R153, R154). -/
theorem noCommonOnes_iff (a b : Word) : noCommonOnes a b = true ↔ a &&& b = 0 := by
  simp [noCommonOnes]

/-- The meaning of SKE (R150). -/
theorem exec_ske_eq (a : Operand) (s : State) :
    exec (.ske a) s = withOperand s a fun d => (s, skipIf (s.ar == d)) := rfl

/-- The meaning of SKM (R151). -/
theorem exec_skm_eq (a : Operand) (s : State) :
    exec (.skm a) s = withOperand s a fun d => (s, skipIf (equalUnder s.br s.ar d)) := rfl

/-- The meaning of SKA (R153). -/
theorem exec_ska_eq (a : Operand) (s : State) :
    exec (.ska a) s = withOperand s a fun d => (s, skipIf (noCommonOnes s.ar d)) := rfl

/-- The meaning of SKB (R154). -/
theorem exec_skb_eq (a : Operand) (s : State) :
    exec (.skb a) s = withOperand s a fun d => (s, skipIf (noCommonOnes s.br d)) := rfl

/-- Ending a state by a conditional skip changes P alone: by 2 where the condition holds, by 1 where it does not (R116, R117). -/
theorem endWith_skipIf (s : State) {test : Bool} {cond : Prop} [Decidable cond] (h : test = true ↔ cond) :
    s.endWith (skipIf test) = { s with p := if cond then s.p + 2 else s.p + 1 } := by
  by_cases hc : cond
  · have : test = true := h.mpr hc
    simp [State.endWith, this, hc]
  · have : test = false := Bool.eq_false_iff.mpr (mt h.mp hc)
    simp [State.endWith, this, hc]

/-- An instruction that tests D and does nothing else changes P alone where Q and the word there exist. -/
theorem withOperand_skips {s : State} {a : Operand} {q d : Word} (hq : ea s a = .done q) (hd : contents s q = .ok d)
    (test : Word → Bool) {cond : Prop} [Decidable cond] (h : test d = true ↔ cond) :
    (withOperand s a fun d => (s, skipIf (test d))) = .next { s with p := if cond then s.p + 2 else s.p + 1 } :=
  (withOperand_done hq hd _).trans (congrArg _ (endWith_skipIf s h))

/-- Settles O20: each instruction is `withOperand` over its own test of D, and each test is the condition its rule names. -/
theorem equalityAndMaskSkips : Obligations.EqualityAndMaskSkips := by
  intro s a q d hq hd
  have ske : exec (.ske a) s = .next { s with p := if s.ar = d then s.p + 2 else s.p + 1 } :=
    (exec_ske_eq a s).trans (withOperand_skips hq hd (s.ar == ·) beq_iff_eq)
  have skm : exec (.skm a) s = .next { s with p := if s.ar &&& s.br = d &&& s.br then s.p + 2 else s.p + 1 } :=
    (exec_skm_eq a s).trans (withOperand_skips hq hd (equalUnder s.br s.ar) (equalUnder_iff s.br s.ar d))
  have ska : exec (.ska a) s = .next { s with p := if s.ar &&& d = 0 then s.p + 2 else s.p + 1 } :=
    (exec_ska_eq a s).trans (withOperand_skips hq hd (noCommonOnes s.ar) (noCommonOnes_iff s.ar d))
  have skb : exec (.skb a) s = .next { s with p := if s.br &&& d = 0 then s.p + 2 else s.p + 1 } :=
    (exec_skb_eq a s).trans (withOperand_skips hq hd (noCommonOnes s.br) (noCommonOnes_iff s.br d))
  exact ⟨ske, skm, ska, skb, rfl, rfl, rfl, rfl⟩

end Sys2Proof.Machine

/-! Miscellaneous (47_miscellaneous.md): NOP, and EAX with the address that replaces the low 14 bits of X. -/

namespace Sys2Proof.Machine

/-- An instruction that computes Q first completes with its body's state and ending, where Q exists and the body is done
(40_execution_cycle.md R111, R117). -/
theorem withAddress_done {s t : State} {a : Operand} {q : Word} {e : Ending} {body : Word → Stage (State × Ending)}
    (hq : ea s a = .done q) (hb : body q = .done (t, e)) : withAddress s a body = .next (t.endWith e) := by
  simp [withAddress, hq, hb]

/-- The meaning of NOP (R200). -/
theorem exec_nop_eq (a : Operand) (s : State) :
    exec (.nop a) s = withAddress s a fun _ => .done (s, .step) := rfl

/-- The word EAX leaves in X: `(Q AND 37777B) OR (XR AND 7774B4)` (R202). -/
def eaxWord (q x : Word) : Word := (q &&& 0o37777#24) ||| (x &&& 0o77740000#24)

/-- The meaning of EAX (R202). -/
theorem exec_eax_eq (a : Operand) (s : State) :
    exec (.eax a) s = withAddress s a fun q => .done ({ s with xr := eaxWord q s.xr }, .step) := rfl

/-- The bits of a word above those of a relative address: bits 0-9 in the numbering of R202. -/
def highTen (v : Word) : BitVec 10 := v.extractLsb' 14 10

/-- A word is its bits above a relative address, then its relative address. -/
theorem highTen_append_low14 (v : Word) : highTen v ++ low14 v = v := by
  have parts : v.extractLsb' 14 10 ++ v.extractLsb' 0 14 = v.extractLsb' 0 24 :=
    BitVec.extractLsb'_append_extractLsb'_eq_extractLsb' rfl
  simpa [highTen, low14, BitVec.setWidth_eq_extractLsb'] using parts

/-- The bits above a relative address count multiples of 2^14. -/
theorem highTen_toNat (v : Word) : (highTen v).toNat = v.toNat / 2 ^ 14 := by
  have := v.isLt
  simp only [highTen, BitVec.extractLsb'_toNat, Nat.shiftRight_eq_div_pow]
  omega

/-- EAX's two masks keep Q's low 14 bits and X's bits above them (R202). -/
theorem eaxWord_eq_append (q x : Word) : eaxWord q x = highTen x ++ low14 q := by
  have lowMask : 0o37777#24 = 0#10 ++ BitVec.allOnes 14 := rfl
  have highMask : 0o77740000#24 = BitVec.allOnes 10 ++ 0#14 := rfl
  calc eaxWord q x
      = ((highTen q ++ low14 q) &&& (0#10 ++ BitVec.allOnes 14)) |||
          ((highTen x ++ low14 x) &&& (BitVec.allOnes 10 ++ 0#14)) := by
        rw [highTen_append_low14, highTen_append_low14, eaxWord, lowMask, highMask]
    _ = highTen x ++ low14 q := by
        simp only [BitVec.and_append, BitVec.or_append, BitVec.and_zero, BitVec.and_allOnes, BitVec.zero_or, BitVec.or_zero]

/-- The number EAX leaves in X. -/
theorem eaxWord_toNat (q x : Word) : (eaxWord q x).toNat = q.toNat % 2 ^ 14 + x.toNat / 2 ^ 14 * 2 ^ 14 := by
  calc (eaxWord q x).toNat
      = (highTen x).toNat <<< 14 ||| (low14 q).toNat := by rw [eaxWord_eq_append, BitVec.toNat_append]
    _ = (highTen x).toNat <<< 14 + (low14 q).toNat := (Nat.shiftLeft_add_eq_or_of_lt (low14 q).isLt _).symm
    _ = q.toNat % 2 ^ 14 + x.toNat / 2 ^ 14 * 2 ^ 14 := by
        rw [Nat.shiftLeft_eq, highTen_toNat, low14, BitVec.toNat_setWidth, Nat.add_comm]

/-- Settles O34: both instructions are `withAddress` over a body that ends by stepping P, NOP's with the state as it was,
EAX's with `eaxWord` in X. -/
theorem noOperationAndEffectiveAddressToX : Obligations.NoOperationAndEffectiveAddressToX := by
  intro s a q hq
  have nop : exec (.nop a) s = .next { s with p := s.p + 1 } :=
    (exec_nop_eq a s).trans (withAddress_done (t := s) (e := .step) hq rfl)
  have eax : exec (.eax a) s = .next { s with xr := eaxWord q s.xr, p := s.p + 1 } :=
    (exec_eax_eq a s).trans (withAddress_done (t := { s with xr := eaxWord q s.xr }) (e := .step) hq rfl)
  exact ⟨nop, ⟨eaxWord q s.xr, eaxWord_toNat q s.xr, eax⟩, rfl, rfl⟩

end Sys2Proof.Machine

/-! Input/output and UPS (48_io_and_ups.md): UPS sub-case 3, in its row, where Q names it at run time, and its words. -/

namespace Sys2Proof.Machine

/-- An instruction that computes Q first is refused as its body is, where Q exists (40_execution_cycle.md R111). -/
theorem withAddress_refused {s : State} {a : Operand} {q : Word} {e : Refusal} {body : Word → Stage (State × Ending)}
    (hq : ea s a = .done q) (hb : body q = .refused e) : withAddress s a body = .refused e := by
  simp [withAddress, hq, hb]

/-- The meaning of UPS (R212). -/
theorem exec_ups_eq (a : Operand) (s : State) : exec (.ups a) s = withAddress s a fun q => signal q s := rfl

/-- The meaning of UPS sub-case 3 with X = I = 0 (R214). -/
theorem exec_upsUndefined_eq (w : RelAddr) (s : State) :
    exec (.upsUndefined w) s = withAddress s (.direct w) fun _ => .refused .undefinedSignal := rfl

/-- The sub-case of UPS as a number: `Q[9:8]` (30_encoding.md R90). -/
theorem signalField_toNat (q : Word) : (signalField q).toNat = q.toNat / 2 ^ 8 % 4 := by
  simp [signalField, Nat.shiftRight_eq_div_pow]

/-- The sub-case of a direct UPS as a number: `W[9:8]` (30_encoding.md R90). -/
theorem signalOfAddress_toNat (w : RelAddr) : (signalOfAddress w).toNat = w.toNat / 2 ^ 8 % 4 := by
  simp [signalOfAddress, Nat.shiftRight_eq_div_pow]

/-- The sub-case 3 that Q names has no effect to model (R214). -/
theorem signal_undefined {q : Word} (h : q.toNat / 2 ^ 8 % 4 = 3) (s : State) : signal q s = .refused .undefinedSignal := by
  have field : (signalField q).toNat = 3 := (signalField_toNat q).trans h
  simp [signal, field]

/-- A UPS word with X = I = 0 whose address holds the number 3 belongs to the row of sub-case 3 (30_encoding.md R94). -/
theorem decodeSignal_undefined {w : RelAddr} (h : w.toNat / 2 ^ 8 % 4 = 3) :
    decodeSignal (.direct w) = .upsUndefined w := by
  have field : (signalOfAddress w).toNat = 3 := (signalOfAddress_toNat w).trans h
  simp [decodeSignal, Operand.runTime, field]

/-- A word with X = Pbit = I = 0 is its operation code at weight 2^15 and its address below (30_encoding.md R81). -/
theorem encodeMachine_direct_toNat (op : BitVec 6) (w : RelAddr) :
    (encodeMachine op (.direct w)).toNat = op.toNat * 2 ^ 15 + w.toNat := by
  calc (encodeMachine op (.direct w)).toNat
      = (0#3 ++ op ++ 0#1 ++ w).toNat := by simp [encodeMachine, encodeFields]
    _ = op.toNat <<< 15 ||| w.toNat := by
        simp only [BitVec.toNat_append, BitVec.toNat_ofNat, Nat.zero_mod, Nat.zero_shiftLeft, Nat.zero_or, Nat.or_zero,
          ← Nat.shiftLeft_add]
    _ = op.toNat * 2 ^ 15 + w.toNat := by
        rw [← Nat.shiftLeft_add_eq_or_of_lt (w.isLt.trans (by decide)), Nat.shiftLeft_eq]

/-- The words of sub-case 3 with X = I = 0, by their parameter (R214): 41B at weight 2^15, 3 at weight 2^8, m below. -/
theorem undefinedSignalWord_eq {m : Nat} (hm : m < 256) :
    BitVec.ofNat 24 (0o04101400 + m) = encodeMachine 0o41 (.direct (BitVec.ofNat 14 (0o1400 + m))) := by
  apply BitVec.eq_of_toNat_eq
  have code : (0o41 : BitVec 6).toNat = 0o41 := rfl
  rw [encodeMachine_direct_toNat, code, BitVec.toNat_ofNat, BitVec.toNat_ofNat]
  omega

/-- Settles O42: row and run-time UPS are `withAddress` over a body that refuses sub-case 3, and each of the words is the encoding of
a direct UPS whose address holds the number 3. -/
theorem undefinedSignalIsRefused : Obligations.UndefinedSignalIsRefused := by
  refine ⟨fun s w => ?row, fun s a q hq hsub => ?runTime, fun m hm => ?word⟩
  case row => exact (exec_upsUndefined_eq w s).trans (withAddress_refused (ea_direct s w) rfl)
  case runTime => exact (exec_ups_eq a s).trans (withAddress_refused hq (signal_undefined hsub s))
  case word =>
    have sub : (BitVec.ofNat 14 (0o1400 + m)).toNat / 2 ^ 8 % 4 = 3 := by
      rw [BitVec.toNat_ofNat]
      omega
    rw [undefinedSignalWord_eq hm, decodeWord_encodeMachine]
    exact decodeSignal_undefined sub

end Sys2Proof.Machine

/-! Decoding and encoding (30_encoding.md): the decoder undoes the encoder on well-formed instructions, the encoder undoes the
decoder on every word but for bit 0, and the pop bit and the operation code tell what a word holds. -/

namespace Sys2Proof

/-- An operation code from 42B is illegal (30_encoding.md R96 (c)). -/
theorem decodeMachine_illegal {op : BitVec 6} (h : 0o42 ≤ op.toNat) (a : Operand) :
    decodeMachine op a = decodeIllegal op a := by
  unfold decodeMachine
  split
  case h_35 => rfl
  all_goals omega

/-- A word with Pbit = 0 and an operation code from 42B holds an illegal instruction (30_encoding.md R96 (c)). -/
theorem decodeWord_illegal {op : BitVec 6} (h : 0o42 ≤ op.toNat) (a : Operand) :
    decodeWord (encodeMachine op a) = decodeIllegal op a :=
  (decodeWord_encodeMachine op a).trans (decodeMachine_illegal h a)

/-- The decoder undoes the encoder: a plain row by its operation code, a parent of sub-cases by X or I, an illegal code by its
range, a sub-case's row by the number its address holds. -/
theorem decodeWord_encodeWord (i : Instr) (h : i.wellFormed = true) : decodeWord (encodeWord i) = i := by
  cases i
  case pop op a => simp [encodeWord, decodeWord]
  case shift a | rch a | ups a => exact (decodeWord_encodeMachine _ a).trans (if_pos h)
  case illegal60 op a =>
    have range := of_decide_eq_true h
    rw [encodeWord, decodeWord_illegal (by omega), decodeIllegal, if_pos (by omega)]
  case illegal50 op a =>
    have range := of_decide_eq_true h
    rw [encodeWord, decodeWord_illegal (by omega), decodeIllegal, if_neg (by omega), if_pos (by omega)]
  case illegal44 op a =>
    have range := of_decide_eq_true h
    rw [encodeWord, decodeWord_illegal (by omega), decodeIllegal, if_neg (by omega), if_neg (by omega), if_pos (by omega)]
  case illegal42 op a =>
    have range := of_decide_eq_true h
    rw [encodeWord, decodeWord_illegal (by omega), decodeIllegal, if_neg (by omega), if_neg (by omega), if_neg (by omega)]
  case lcy w | lsh w | rsh w | lrsh w | rcy w | shiftTrap5 w =>
    have kind := eq_of_beq h
    simp [encodeWord, decodeMachine, decodeShift, Operand.runTime, kind]
  case shiftTrap6 w =>
    have kind := (Bool.or_eq_true _ _).mp h
    simp only [beq_iff_eq] at kind
    rcases kind with kind | kind <;> simp [encodeWord, decodeMachine, decodeShift, Operand.runTime, kind]
  case xca w | cca w | clab w | cla w | clb w | clx w | cab w | cba w | xab w | cbx w | cxb w | xxb w | cxa w | cax w | xxa w
      | cna w =>
    have sub := eq_of_beq h
    simp [encodeWord, decodeMachine, decodeChange, Operand.runTime, sub]
  case str w | upr w | pro w | upsUndefined w =>
    have sub := eq_of_beq h
    simp [encodeWord, decodeMachine, decodeSignal, Operand.runTime, sub]
  all_goals exact decodeWord_encodeMachine _ _

/-- The bytes of an instruction are those of its word, with none left over. -/
theorem decode_encode (i : Instr) : decode (encode i) = .ok (decodeWord (encodeWord i), []) := by
  simp [decode, encode, Machine.wordOfBytes_byteOfWord]

/-- Settles O1: the bytes of an instruction make its word, and the decoder undoes the encoder on the word. -/
theorem encodedInstructionDecodes : Obligations.EncodedInstructionDecodes := by
  intro i h
  have word : decodeWord (encodeWord i) = i := decodeWord_encodeWord i h
  exact ⟨(decode_encode i).trans (by rw [word]), word⟩


/-- What an instruction `i` has in common with the word of operation code `op` and address part `a` that it was decoded from. -/
structure DecodedFrom (op : BitVec 6) (a : Operand) (i : Instr) : Prop where
  wellFormed : i.wellFormed = true
  encodes : encodeWord i = encodeMachine op a
  addressPart : i.addressPart = some a
  illegal : i.isIllegal = true ↔ 0o42 ≤ op.toNat

/-- A sub-case's row agrees with the direct word that it is decoded from. -/
theorem decodedFrom_subcase {op : BitVec 6} {a : Operand} {i : Instr} (ha : ¬ a.runTime = true) (hop : op.toNat < 0o42)
    (wellFormed : i.wellFormed = true) (encodes : encodeWord i = encodeMachine op (.direct a.w))
    (addressPart : i.addressPart = some (.direct a.w)) (legal : i.isIllegal = false) : DecodedFrom op a i := by
  obtain ⟨x, i, w⟩ := a
  simp only [Operand.runTime, Bool.or_eq_true, not_or, Bool.not_eq_true] at ha
  obtain ⟨rfl, rfl⟩ := ha
  exact ⟨wellFormed, encodes, addressPart, by simp [legal, hop]⟩

/-- A SHIFT word decodes to the row of its kind, or to the parent with X or I (30_encoding.md R92). -/
theorem decodeShift_decodedFrom (a : Operand) : DecodedFrom 0o31 a (decodeShift a) := by
  unfold decodeShift
  split
  case isTrue h => exact ⟨h, rfl, rfl, by simp [Instr.isIllegal]⟩
  case isFalse h =>
    generalize hk : (kindOfAddress a.w).toNat = k
    have range : k < 8 := hk ▸ (kindOfAddress a.w).isLt
    have kind : kindOfAddress a.w = BitVec.ofNat 3 k := by simp [← hk]
    interval_cases k <;>
      exact decodedFrom_subcase h (by decide) (by simp [Instr.wellFormed, kind]) rfl rfl rfl

/-- An RCH word decodes to the row of its sub-case, or to the parent with X or I (30_encoding.md R93). -/
theorem decodeChange_decodedFrom (a : Operand) : DecodedFrom 0o16 a (decodeChange a) := by
  unfold decodeChange
  split
  case isTrue h => exact ⟨h, rfl, rfl, by simp [Instr.isIllegal]⟩
  case isFalse h =>
    generalize hk : (changeOfAddress a.w).toNat = k
    have range : k < 16 := hk ▸ (changeOfAddress a.w).isLt
    have sub : changeOfAddress a.w = BitVec.ofNat 4 k := by simp [← hk]
    interval_cases k <;>
      exact decodedFrom_subcase h (by decide) (by simp [Instr.wellFormed, sub]) rfl rfl rfl

/-- A UPS word decodes to the row of its sub-case, or to the parent with X or I (30_encoding.md R94). -/
theorem decodeSignal_decodedFrom (a : Operand) : DecodedFrom 0o41 a (decodeSignal a) := by
  unfold decodeSignal
  split
  case isTrue h => exact ⟨h, rfl, rfl, by simp [Instr.isIllegal]⟩
  case isFalse h =>
    generalize hk : (signalOfAddress a.w).toNat = k
    have range : k < 4 := hk ▸ (signalOfAddress a.w).isLt
    have sub : signalOfAddress a.w = BitVec.ofNat 2 k := by simp [← hk]
    interval_cases k <;>
      exact decodedFrom_subcase h (by decide) (by simp [Instr.wellFormed, sub]) rfl rfl rfl

/-- An illegal code decodes to the row of its range (30_encoding.md R96 (c)). -/
theorem decodeIllegal_decodedFrom {op : BitVec 6} (h : 0o42 ≤ op.toNat) (a : Operand) :
    DecodedFrom op a (decodeIllegal op a) := by
  have row : ∀ {i : Instr}, i.wellFormed = true → encodeWord i = encodeMachine op a → i.addressPart = some a →
      i.isIllegal = true → DecodedFrom op a i := fun w e p l => ⟨w, e, p, fun _ => h, fun _ => l⟩
  unfold decodeIllegal
  split
  · exact row (decide_eq_true ‹_›) rfl rfl rfl
  · split
    · exact row (decide_eq_true (by omega)) rfl rfl rfl
    · split
      · exact row (decide_eq_true (by omega)) rfl rfl rfl
      · exact row (decide_eq_true (by omega)) rfl rfl rfl

/-- Every operation code with every address part decodes to an instruction that agrees with them: those of SHIFT, RCH and UPS by
their sub-cases, those from 42B as illegal, each of the others to its own row. -/
theorem decodeMachine_decodedFrom (op : BitVec 6) (a : Operand) : DecodedFrom op a (decodeMachine op a) := by
  rcases Nat.lt_or_ge op.toNat 0o42 with small | large
  · generalize hk : op.toNat = k at small
    obtain rfl : op = BitVec.ofNat 6 k := by simp [← hk]
    unfold decodeMachine
    rw [hk]
    split
    -- operation codes 16B, 31B and 41B, and then those above 41B, of which there is none here
    case h_15 => exact decodeChange_decodedFrom a
    case h_26 => exact decodeShift_decodedFrom a
    case h_34 => exact decodeSignal_decodedFrom a
    case h_35 =>
      simp only [imp_false] at *
      omega
    all_goals exact ⟨rfl, rfl, rfl, by simp [Instr.isIllegal]⟩
  · rw [decodeMachine_illegal large]
    exact decodeIllegal_decodedFrom large a

/-- The decoder sees a word's fields and nothing else of it (30_encoding.md R82). -/
theorem decodeWord_masked (w : Word) : decodeWord (w &&& 0o37777777#24) = decodeWord w := by
  rw [← encodeFields_fields]
  simp [decodeWord, operandOf]

/-- The instruction a word holds is well-formed and encodes the word but for bit 0. -/
theorem decodeWord_encodes (w : Word) :
    (decodeWord w).wellFormed = true ∧ encodeWord (decodeWord w) = w &&& 0o37777777#24 := by
  rw [← encodeFields_fields w]
  unfold decodeWord
  cases hp : fieldPop w with
  | true => exact ⟨rfl, rfl⟩
  | false =>
    obtain ⟨wellFormed, encodes, -, -⟩ := decodeMachine_decodedFrom (fieldOp w) (operandOf w)
    exact ⟨wellFormed, encodes⟩

/-- Settles O2: the third part because flipping bit 0 leaves the masked word as it was, which is all the decoder sees. -/
theorem decodedWordEncodesBack : Obligations.DecodedWordEncodesBack := by
  intro w
  obtain ⟨wellFormed, encodes⟩ := decodeWord_encodes w
  have masked : (w ^^^ 0o40000000#24) &&& 0o37777777#24 = w &&& 0o37777777#24 := by
    have apart : 0o40000000#24 &&& 0o37777777#24 = 0#24 := by decide
    have distrib : (w ^^^ 0o40000000#24) &&& 0o37777777#24 =
        (w &&& 0o37777777#24) ^^^ (0o40000000#24 &&& 0o37777777#24) :=
      BitVec.eq_of_getLsbD_eq fun k _ => by
        simp only [BitVec.getLsbD_and, BitVec.getLsbD_xor, Bool.and_xor_distrib_right]
    rw [distrib, apart, BitVec.xor_zero]
  refine ⟨wellFormed, encodes, ?_⟩
  rw [← decodeWord_masked, masked, decodeWord_masked]

/-- Settles O4: a word without the pop bit decodes to an instruction with an address part, which a pop has not. -/
theorem popBitAndOperationCodeClassify : Obligations.PopBitAndOperationCodeClassify := by
  intro w
  refine ⟨fun hp => if_pos hp, fun hp => ?_⟩
  have word : decodeWord w = decodeMachine (fieldOp w) (operandOf w) := by simp [decodeWord, hp]
  obtain ⟨-, -, addressPart, illegal⟩ := decodeMachine_decodedFrom (fieldOp w) (operandOf w)
  rw [word]
  refine ⟨fun op a isPop => ?_, illegal⟩
  rw [isPop] at addressPart
  cases addressPart

/-- Settles O3: the decoder evaluated on each of the words. -/
theorem specWordsDecode : Obligations.SpecWordsDecode := by
  unfold Obligations.SpecWordsDecode
  decide

end Sys2Proof

/-! Chains: following the links from a point, and that a chain longer than there are keys to its points never ends. -/

namespace Sys2Proof.Machine

section Chains
variable {α : Type} (link : α → Option α)

/-- The point `n` links after `a`, if the chain from `a` is that long. -/
def follow (n : Nat) (a : α) : Option α := (fun o : Option α => o.bind link)^[n] (some a)

@[simp] theorem follow_zero (a : α) : follow link 0 a = some a := rfl

/-- One link at the end of a chain. -/
theorem follow_succ (n : Nat) (a : α) : follow link (n + 1) a = (follow link n a).bind link :=
  Function.iterate_succ_apply' ..

/-- One link at the start of a chain. -/
theorem follow_of_link {a b : α} (h : link a = some b) (n : Nat) : follow link (n + 1) a = follow link n b := by
  simp [follow, h]

/-- A chain that ends at once has no further points. -/
theorem follow_of_end {a : α} (h : link a = none) (n : Nat) : follow link (n + 1) a = none := by
  induction n with
  | zero => simpa [follow_succ] using h
  | succ n ih => rw [follow_succ, ih]; rfl

/-- A chain has every point before one that it has. -/
theorem follow_before {m n : Nat} {a : α} (hmn : m ≤ n) (h : follow link n a ≠ none) : follow link m a ≠ none := by
  induction n, hmn using Nat.le_induction with
  | base => exact h
  | succ n _ ih => exact ih fun he => h (by rw [follow_succ, he]; rfl)

/-- Points that agree are followed by points that agree. -/
theorem follow_add_congr {i j : Nat} {a : α} (h : follow link i a = follow link j a) (n : Nat) :
    follow link (n + i) a = follow link (n + j) a := by
  simp only [follow, Function.iterate_add_apply]
  exact congrArg _ h

/-- A chain that comes to one point twice never ends. -/
theorem follow_forever_of_repeat {i j : Nat} {a : α} (hij : i < j) (hj : follow link j a ≠ none)
    (h : follow link i a = follow link j a) (n : Nat) : follow link n a ≠ none := by
  induction n using Nat.strong_induction_on with
  | _ n ih =>
    rcases Nat.le_total n j with hn | hn
    · exact follow_before link hn hj
    · have back : follow link n a = follow link (n - j + i) a := by
        rw [follow_add_congr link h, Nat.sub_add_cancel hn]
      rw [back]
      exact ih _ (by omega)

/-- A chain of more than `bound + 1` points never ends, if fewer than `bound` keys tell apart what its points link to. -/
theorem follow_forever {bound : Nat} (key : α → Nat) (small : ∀ a, key a < bound)
    (faithful : ∀ a b, key a = key b → link a ≠ none → link b ≠ none → link a = link b) {a : α}
    (h : follow link (bound + 1) a ≠ none) (n : Nat) : follow link n a ≠ none := by
  have point (k : Nat) : ∃ b, k ≤ bound → follow link k a = some b ∧ link b ≠ none := by
    by_cases hk : k ≤ bound
    · obtain ⟨b, hb⟩ := Option.ne_none_iff_exists'.mp (follow_before link (Nat.le_succ_of_le hk) h)
      have next := follow_before link (Nat.succ_le_succ hk) h
      rw [Nat.succ_eq_add_one, follow_succ, hb] at next
      exact ⟨b, fun _ => ⟨hb, next⟩⟩
    · exact ⟨a, fun h => absurd h hk⟩
  choose p hp using point
  obtain ⟨i, hi, j, hj, hne, same⟩ :=
    Finset.exists_ne_map_eq_of_card_lt_of_maps_to (s := Finset.range (bound + 1)) (t := Finset.range bound) (by simp)
      (f := fun k => key (p k)) (fun k _ => by simpa using small (p k))
  simp only [Finset.mem_range, Nat.lt_succ_iff] at hi hj
  obtain ⟨at_i, linked_i⟩ := hp i hi
  obtain ⟨at_j, linked_j⟩ := hp j hj
  have meet : follow link (i + 1) a = follow link (j + 1) a := by
    rw [follow_succ, follow_succ, at_i, at_j]
    exact faithful _ _ same linked_i linked_j
  rcases Nat.lt_or_gt_of_ne hne with hij | hij
  · exact follow_forever_of_repeat link (Nat.succ_lt_succ hij) (follow_before link (Nat.succ_le_succ hj) h) meet n
  · exact follow_forever_of_repeat link (Nat.succ_lt_succ hij) (follow_before link (Nat.succ_le_succ hi) h) meet.symm n

/-- A chain never ends exactly if there is a sequence of points each of which links to the next. -/
theorem follow_forever_iff (a : α) :
    (∀ n, follow link n a ≠ none) ↔ ∃ f : Nat → α, f 0 = a ∧ ∀ k, link (f k) = some (f (k + 1)) := by
  constructor
  · intro h
    choose f hf using fun n => Option.ne_none_iff_exists'.mp (h n)
    refine ⟨f, by simpa using (hf 0).symm, fun k => ?_⟩
    have := hf (k + 1)
    rwa [follow_succ, hf k] at this
  · rintro ⟨f, rfl, hf⟩ n
    have at_n : follow link n (f 0) = some (f n) := by
      induction n with
      | zero => rfl
      | succ n ih => rw [follow_succ, ih]; exact hf n
    simp [at_n]

end Chains

end Sys2Proof.Machine

/-! The effective address (30_encoding.md R87): its chain of indirect words, its two kinds, what it reads; CONTENTS. -/

namespace Sys2Proof.Machine

/-- The address part that the addressing loop goes on with, where it goes on: the word fetched is a normal indirect address word
(30_encoding.md R83, R87). -/
def addressLink (s : State) (a : Operand) : Option Operand :=
  if a.i then
    match contents s (passAddress s a) with
    | .ok t => if t.getLsbD 23 then none else some (operandOf t)
    | .error _ => none
  else none

/-- When the addressing loop goes on, and with which address part. -/
theorem addressLink_eq_some {s : State} {a b : Operand} :
    addressLink s a = some b ↔
      a.i = true ∧ ∃ t, contents s (passAddress s a) = .ok t ∧ t.getLsbD 23 = false ∧ b = operandOf t := by
  unfold addressLink
  cases hi : a.i with
  | false => simp
  | true =>
    cases e : contents s (passAddress s a) with
    | ok t => cases hb : t.getLsbD 23 <;> simp [hb, eq_comm (a := b), -BitVec.getLsbD_eq_getElem]
    | error f => simp

/-- A pass that goes on is followed by the loop on the next address part. -/
theorem addressLoop_of_link {s : State} {a b : Operand} (h : addressLink s a = some b) (n : Nat) :
    addressLoop (n + 1) s a = addressLoop n s b := by
  obtain ⟨hi, t, ht, hn, rfl⟩ := addressLink_eq_some.mp h
  simp [addressLoop_indirect n s hi, ht, hn, -BitVec.getLsbD_eq_getElem]

/-- A pass that does not go on ends the loop. -/
theorem addressLoop_of_end {s : State} {a : Operand} (h : addressLink s a = none) (n : Nat) :
    addressLoop (n + 1) s a ≠ .endless := by
  cases hi : a.i with
  | false => simp [addressLoop_direct n s hi]
  | true =>
    rw [addressLoop_indirect n s hi]
    cases e : contents s (passAddress s a) with
    | ok t =>
      cases hb : t.getLsbD 23 with
      | true => simp [hb, -BitVec.getLsbD_eq_getElem]
      | false => simp [addressLink_eq_some.mpr ⟨hi, t, e, hb, rfl⟩] at h
    | error f => simp

/-- The loop uses up its passes exactly if the chain has that many links. -/
theorem addressLoop_eq_endless_iff (n : Nat) (s : State) (a : Operand) :
    addressLoop n s a = .endless ↔ follow (addressLink s) n a ≠ none := by
  induction n generalizing a with
  | zero => simp [addressLoop]
  | succ n ih =>
    cases h : addressLink s a with
    | none => simp [follow_of_end _ h, addressLoop_of_end h]
    | some b => rw [addressLoop_of_link h, follow_of_link _ h, ih]

/-- Two address parts that go on and whose passes have the same address go on alike. -/
theorem addressLink_congr {s : State} {a b : Operand} (h : (passAddress s a).toNat = (passAddress s b).toNat)
    (ha : addressLink s a ≠ none) (hb : addressLink s b ≠ none) : addressLink s a = addressLink s b := by
  obtain ⟨_, hc⟩ := Option.ne_none_iff_exists'.mp ha
  obtain ⟨_, hd⟩ := Option.ne_none_iff_exists'.mp hb
  obtain ⟨ia, -⟩ := addressLink_eq_some.mp hc
  obtain ⟨ib, -⟩ := addressLink_eq_some.mp hd
  simp only [addressLink, ia, ib, BitVec.eq_of_toNat_eq h]

/-- The effective address computation is endless exactly if its chain never ends (30_encoding.md R88 (d)): there are 2^14
addresses a pass can have. -/
theorem ea_eq_endless_iff (s : State) (a : Operand) : ea s a = .endless ↔ ∀ n, follow (addressLink s) n a ≠ none := by
  rw [ea, addressLoop_eq_endless_iff]
  exact ⟨follow_forever _ (fun a => (passAddress s a).toNat) (fun a => Nat.lt_succ_of_le (passAddress_le s a))
    (fun _ _ => addressLink_congr), fun h => h _⟩

/-- Where the loop goes on, the effective address is that of the next address part: no bound on the passes shows. -/
theorem ea_of_link {s : State} {a b : Operand} (h : addressLink s a = some b) : ea s a = ea s b := by
  have pass : ea s a = addressLoop (2 ^ 14) s b := addressLoop_of_link h _
  by_cases hb : addressLoop (2 ^ 14) s b = .endless
  · have more : follow (addressLink s) (2 ^ 14 + 1) a ≠ none := by
      rw [follow_of_link _ h]
      exact (addressLoop_eq_endless_iff _ s b).mp hb
    have forever := (ea_eq_endless_iff s a).mp ((addressLoop_eq_endless_iff _ s a).mpr more)
    have : ea s b = .endless := (ea_eq_endless_iff s b).mpr fun n => by
      rw [← follow_of_link _ h]
      exact forever (n + 1)
    rw [pass, hb, this]
  · rw [pass]
    exact (addressLoop_succ _ s b hb).symm

/-- Without indirection the effective address is that of the one pass (30_encoding.md R89). -/
theorem ea_not_indirect (s : State) {a : Operand} (h : a.i = false) : ea s a = .done (passAddress s a) :=
  addressLoop_direct _ s h

/-- With indirection the word at the address of the pass decides (30_encoding.md R87). -/
theorem ea_indirect (s : State) {a : Operand} (h : a.i = true) :
    ea s a = (Stage.ofAccess (contents s (passAddress s a))).bind fun t =>
      if t.getLsbD 23 then .done (absoluteAddress s t) else ea s (operandOf t) := by
  have pass : ea s a = (Stage.ofAccess (contents s (passAddress s a))).bind fun t =>
      if t.getLsbD 23 then .done (absoluteAddress s t) else addressLoop (2 ^ 14) s (operandOf t) :=
    addressLoop_indirect (2 ^ 14) s h
  cases e : contents s (passAddress s a) with
  | ok t =>
    rw [e] at pass
    cases hb : t.getLsbD 23 with
    | true => exact pass.trans (by simp [hb, -BitVec.getLsbD_eq_getElem])
    | false =>
      rw [ea_of_link (addressLink_eq_some.mpr ⟨h, t, e, hb, rfl⟩)]
      simp [hb, -BitVec.getLsbD_eq_getElem]
  | error f =>
    rw [pass, e]
    simp only [ofAccess_error, bind_fault]

/-- The addressing loop reads X, REL, memory, LW_WIDTH and MEM_WORDS. -/
theorem addressLoop_congr {s u : State} (hx : u.xr = s.xr) (hr : u.rel = s.rel) (hm : u.mem = s.mem)
    (hl : u.params.lwExtra = s.params.lwExtra) (hw : u.params.memWords = s.params.memWords) (n : Nat) (a : Operand) :
    addressLoop n u a = addressLoop n s a := by
  induction n generalizing a with
  | zero => rfl
  | succ n ih =>
    have pass : passAddress u a = passAddress s a := by simp [passAddress, hx]
    have place (q : Word) : location u q = location s q := by simp only [location, physical, hr]
    have word (q : Word) : contents u q = contents s q := by rw [contents, memRead, place, hm, hw, contents, memRead]
    have absolute (t : Word) : absoluteAddress u t = absoluteAddress s t := by
      simp [absoluteAddress, longAddress, Params.lwWidth, hx, hl]
    simp [addressLoop, pass, word, absolute, ih]

/-- The effective address reads no more than the addressing loop does. -/
theorem ea_congr {s u : State} (hx : u.xr = s.xr) (hr : u.rel = s.rel) (hm : u.mem = s.mem)
    (hl : u.params.lwExtra = s.params.lwExtra) (hw : u.params.memWords = s.params.memWords) (a : Operand) :
    ea u a = ea s a := addressLoop_congr hx hr hm hl hw _ a

/-- Settles O6: the loop by `ea_indirect`, what it cannot do by `ea_cases`, what it reads by `ea_congr`. -/
theorem effectiveAddressIsTheLoop : Obligations.EffectiveAddressIsTheLoop := by
  intro s a
  refine ⟨?loop, fun c h => ?trap, fun r h => ?refused, fun u hx hr hm hl hw => ea_congr hx hr hm hl hw a⟩
  case loop =>
    cases hi : a.i with
    | false => exact ea_not_indirect s hi
    | true =>
      rw [ea_indirect s hi, show passAddress s a = if a.x then zext24 (low14 (zext24 a.w + s.xr)) else zext24 a.w from rfl]
      rcases contents_cases s (if a.x then zext24 (low14 (zext24 a.w + s.xr)) else zext24 a.w) with ⟨_, e⟩ | ⟨_, e⟩ <;>
        simp only [e] <;> rfl
  case trap => rcases ea_cases s a with ⟨_, e⟩ | e | ⟨_, _, e⟩ <;> simp [e] at h
  case refused => rcases ea_cases s a with ⟨_, e⟩ | e | ⟨_, _, e⟩ <;> simp [e] at h

/-- Settles O9: a sequence of address parts as the statement has it is one whose members are linked. -/
theorem endlessIffChainNeverEnds : Obligations.EndlessIffChainNeverEnds := by
  intro s a
  rw [ea_eq_endless_iff, follow_forever_iff]
  simp only [addressLink_eq_some]

/-- A relative address in 24 bits is the same number. -/
@[simp] theorem zext24_toNat (a : RelAddr) : (zext24 a).toNat = a.toNat := by
  have := a.isLt
  simp only [zext24, BitVec.toNat_setWidth]
  omega

/-- The low 14 bits of a word are its remainder modulo 2^14. -/
@[simp] theorem low14_toNat (v : Word) : (low14 v).toNat = v.toNat % 2 ^ 14 := by
  simp [low14]

/-- Settles O7: one pass is enough, and its address is W or the sum modulo 2^14. -/
theorem directAndIndexedForms : Obligations.DirectAndIndexedForms := by
  intro s a hi
  refine ⟨passAddress s a, ea_not_indirect s hi, ?_⟩
  unfold passAddress
  split
  · simp only [zext24_toNat, low14_toNat, BitVec.toNat_add]
    omega
  · exact zext24_toNat a.w

/-- The sign bit of a word is its highest bit (20_memory.md R51). -/
theorem isAbs_iff (q : Word) : isAbs q = true ↔ 2 ^ 23 ≤ q.toNat := by
  have sign : isAbs q = q.msb := rfl
  rw [sign, BitVec.msb_eq_decide, decide_eq_true_iff]

/-- An address whose sign bit is 0 is below 4B7. -/
theorem isAbs_eq_false_iff (q : Word) : isAbs q = false ↔ q.toNat < 2 ^ 23 := by
  rw [← Bool.not_eq_true, isAbs_iff, Nat.not_le]

/-- The location an absolute address names is the address without its sign bit. -/
theorem absLoc_eq (q : Word) : absLoc q = q.toNat % 2 ^ 23 := by
  simp [absLoc]

/-- The absolute result of an indirect word: LW below 4B7 (30_encoding.md R85, R87). -/
theorem absoluteAddress_kind (s : State) (t : Word) :
    isAbs (absoluteAddress s t) = true ∧ absLoc (absoluteAddress s t) < 2 ^ s.params.lwWidth := by
  obtain ⟨v, hv⟩ : ∃ v, v = (if fieldX t then t + s.xr else t).toNat % 2 ^ s.params.lwWidth := ⟨_, rfl⟩
  have below : v < 2 ^ s.params.lwWidth := hv ▸ Nat.mod_lt _ (Nat.two_pow_pos _)
  have widest : 2 ^ s.params.lwWidth ≤ 2 ^ 22 :=
    Nat.pow_le_pow_right (by decide) (by have := s.params.lwExtra.isLt; simp only [Params.lwWidth]; omega)
  have number : (absoluteAddress s t).toNat = v + 2 ^ 23 := by
    rw [absoluteAddress, longAddress, ← hv, BitVec.toNat_add, BitVec.toNat_ofNat, BitVec.toNat_ofNat]
    omega
  rw [isAbs_iff, absLoc_eq, number]
  omega

/-- The two kinds of effective address: relative and of 14 bits, or absolute and of LW_WIDTH bits (20_memory.md R51). -/
theorem addressLoop_kinds (n : Nat) (s : State) (a : Operand) {q : Word} (h : addressLoop n s a = .done q) :
    (isAbs q = false ∧ q.toNat ≤ 0o37777) ∨ (isAbs q = true ∧ absLoc q < 2 ^ s.params.lwWidth) := by
  induction n generalizing a with
  | zero => simp [addressLoop] at h
  | succ n ih =>
    cases hi : a.i with
    | false =>
      have le := passAddress_le s a
      obtain rfl : passAddress s a = q := by simpa [addressLoop_direct n s hi] using h
      exact .inl ⟨(isAbs_eq_false_iff _).mpr (by omega), le⟩
    | true =>
      rw [addressLoop_indirect n s hi] at h
      obtain ⟨t, -, ht⟩ := bind_eq_done h
      split at ht
      · obtain rfl : absoluteAddress s t = q := by simpa using ht
        exact .inr (absoluteAddress_kind s t)
      · exact ih _ ht

/-- Settles O8: by `addressLoop_kinds`, an absolute address being 2^23 and the location it names. -/
theorem effectiveAddressKinds : Obligations.EffectiveAddressKinds := by
  intro s a q h
  rcases addressLoop_kinds _ s a h with ⟨relative, le⟩ | ⟨absolute, lt⟩
  · exact ⟨fun _ => le, fun ha => by simp [relative] at ha⟩
  · refine ⟨fun hr => by simp [absolute] at hr, fun _ => ⟨lt, ?_⟩⟩
    have high := (isAbs_iff q).mp absolute
    have := q.isLt
    rw [absLoc_eq]
    omega

/-- An absolute address names its own location (20_memory.md R56). -/
theorem location_absolute (s : State) {q : Word} (h : isAbs q = true) : location s q = absLoc q := if_pos h

/-- A relative address names a location REL beyond it, modulo 2^24 (20_memory.md R53). -/
theorem location_relative (s : State) {q : Word} (h : isAbs q = false) :
    location s q = (q.toNat + s.rel.toNat) % 2 ^ 24 := by
  simp [location, h, physical]

/-- Where the location exists, CONTENTS is its word (20_memory.md R54). -/
theorem contents_ok {s : State} {q : Word} (h : location s q < s.params.memWords) :
    contents s q = .ok (readWord s.mem (location s q)) := memRead_eq s h

/-- Settles O12: the word at the location that each kind of address names. -/
theorem contentsReadsTheLocation : Obligations.ContentsReadsTheLocation := by
  intro s q
  refine ⟨fun absolute h => ?_, fun relative h => ?_⟩
  · rw [← location_absolute s absolute] at h ⊢
    exact contents_ok h
  · rw [← location_relative s relative] at h ⊢
    exact contents_ok h

end Sys2Proof.Machine

/-! EXU (47_miscellaneous.md R201): its chain of EXU words. -/

namespace Sys2Proof.Machine

/-- The address part of the EXU that an EXU executes, where it executes one. -/
def executeLink (s : State) (a : Operand) : Option Operand :=
  match operandWord s a with
  | .done t =>
    match decodeWord t with
    | .exu b => some b
    | _ => none
  | _ => none

/-- An EXU of an EXU is linked to it. -/
theorem executeLink_exu {s : State} {a b : Operand} {t : Word} (ht : operandWord s a = .done t)
    (hb : decodeWord t = .exu b) : executeLink s a = some b := by
  simp [executeLink, ht, hb]

/-- One link of a chain of EXU words that goes on. -/
theorem executeChain_of_link {s : State} {a b : Operand} (h : executeLink s a = some b) (n : Nat) :
    executeChain (n + 1) a s = executeChain n b s := by
  rcases operandWord_cases s a with ⟨q, _, _, e⟩ | ⟨_, e⟩ | ⟨_, _, e⟩
  · rcases isExecute_cases (decodeWord (readWord s.mem (location s q))) with other | ⟨c, exu⟩
    · simp only [executeLink, e] at h
      split at h
      · next exu => simp [exu, Instr.isExecute] at other
      · simp at h
    · obtain rfl : c = b := by simpa [executeLink_exu e exu] using h
      rw [executeChain_succ n s e, exu]
      rfl
  · simp [executeLink, e] at h
  · simp [executeLink, e] at h

/-- Where a chain of EXU words does not go on, a bound on its length does not matter. -/
theorem executeChain_of_end {s : State} {a : Operand} (h : executeLink s a = none) (m n : Nat) :
    executeChain (m + 1) a s = executeChain (n + 1) a s := by
  rcases operandWord_cases s a with ⟨q, _, _, e⟩ | ⟨_, e⟩ | ⟨_, _, e⟩
  · rcases isExecute_cases (decodeWord (readWord s.mem (location s q))) with other | ⟨c, exu⟩
    · rw [executeChain_succ m s e, executeChain_succ n s e, execBelow_other _ s other, execBelow_other _ s other]
    · simp [executeLink_exu e exu] at h
  · simp [executeChain, e]
  · simp [executeChain, e]

/-- A chain of EXU words longer than the bound on it hangs. -/
theorem executeChain_of_follow (n : Nat) {s : State} {a : Operand} (h : follow (executeLink s) n a ≠ none) :
    executeChain n a s = .next s.hang := by
  induction n generalizing a with
  | zero => rfl
  | succ n ih =>
    cases hl : executeLink s a with
    | none => exact absurd (follow_of_end _ hl n) h
    | some b =>
      rw [follow_of_link _ hl] at h
      rw [executeChain_of_link hl, ih h]

/-- One more link allowed changes nothing for a chain that ended within the bound. -/
theorem executeChain_add_one (n : Nat) {s : State} {a : Operand} (h : follow (executeLink s) n a = none) :
    executeChain (n + 1) a s = executeChain n a s := by
  induction n generalizing a with
  | zero => simp at h
  | succ n ih =>
    cases hl : executeLink s a with
    | none => exact executeChain_of_end hl ..
    | some b =>
      rw [follow_of_link _ hl] at h
      rw [executeChain_of_link hl, executeChain_of_link hl, ih h]

/-- An address part as a number. -/
def operandNumber (a : Operand) : Nat := a.w.toNat + 2 ^ 14 * (a.i.toNat + 2 * a.x.toNat)

/-- There are 2^16 address parts. -/
theorem operandNumber_lt (a : Operand) : operandNumber a < 2 ^ 16 := by
  have hw := a.w.isLt
  have hi := a.i.toNat_lt
  have hx := a.x.toNat_lt
  simp only [operandNumber]
  omega

/-- A bit is known by its number. -/
theorem bool_toNat_inj : ∀ b c : Bool, b.toNat = c.toNat → b = c := by decide

/-- The number tells an address part from every other. -/
theorem operandNumber_injective {a b : Operand} (h : operandNumber a = operandNumber b) : a = b := by
  obtain ⟨x, i, w⟩ := a
  obtain ⟨y, j, v⟩ := b
  have hw := w.isLt
  have hv := v.isLt
  have hi := i.toNat_lt
  have hj := j.toNat_lt
  simp only [operandNumber] at h
  have sameW : w.toNat = v.toNat := by omega
  have sameI : i.toNat = j.toNat := by omega
  have sameX : x.toNat = y.toNat := by omega
  rw [BitVec.eq_of_toNat_eq sameW, bool_toNat_inj _ _ sameI, bool_toNat_inj _ _ sameX]

/-- A chain of more EXU words than there are address parts never ends. -/
theorem follow_executeLink_forever {s : State} {a : Operand} (h : follow (executeLink s) executeDepth a ≠ none) (n : Nat) :
    follow (executeLink s) n a ≠ none :=
  follow_forever _ operandNumber operandNumber_lt (fun _ _ hk _ _ => congrArg _ (operandNumber_injective hk)) h n

/-- Where an EXU executes an EXU, they mean the same: no bound on the depth shows. -/
theorem execExu_of_link {s : State} {a b : Operand} (h : executeLink s a = some b) : execExu a s = execExu b s := by
  have first : execExu a s = executeChain (2 ^ 16) b s := executeChain_of_link h _
  by_cases hb : follow (executeLink s) (2 ^ 16) b = none
  · rw [first]
    exact (executeChain_add_one _ hb).symm
  · have long : follow (executeLink s) executeDepth a ≠ none := by rwa [executeDepth, follow_of_link _ h]
    have forever : follow (executeLink s) executeDepth b ≠ none := by
      rw [← follow_of_link _ h]
      exact follow_executeLink_forever long _
    rw [execExu, execExu, executeChain_of_follow _ long, executeChain_of_follow _ forever]

/-- EXU does what its operand word does (R201). -/
theorem exec_exu {s : State} {a : Operand} {t : Word} (h : operandWord s a = .done t) :
    exec (.exu a) s = exec (decodeWord t) s := by
  rcases isExecute_cases (decodeWord t) with other | ⟨b, exu⟩
  · exact (executeChain_succ _ s h).trans (execBelow_other _ s other)
  · rw [exu]
    exact execExu_of_link (executeLink_exu h exu)

/-- Settles O35: it is `exec_exu`. -/
theorem executeRunsTheOperandWord : Obligations.ExecuteRunsTheOperandWord := fun _ _ _ h => exec_exu h

/-- Settles O37: the sequence of the statement is a chain that never ends, so the bound on it is passed. -/
theorem endlessExecuteChainHangs : Obligations.EndlessExecuteChainHangs := by
  intro s f hf
  have linked (k : Nat) : executeLink s (f k) = some (f (k + 1)) := by
    obtain ⟨t, ht, hb⟩ := hf k
    exact executeLink_exu ht hb
  have forever := (follow_forever_iff (executeLink s) (f 0)).mpr ⟨f, rfl, linked⟩
  exact executeChain_of_follow executeDepth (forever _)

end Sys2Proof.Machine

/-! Words of memory (20_memory.md): a read after a write, where an allowed store writes, and what a store leaves alone. -/

namespace Sys2Proof.Machine

/-- A word write leaves every byte outside the word alone. -/
theorem readByte_writeWord_outside (m : Memory) {loc b : Nat} (v : Word) (h : b < 3 * loc ∨ 3 * loc + 3 ≤ b) :
    readByte (writeWord m loc v) b = readByte m b := by
  rw [writeWord, readByte_writeByte_other _ _ (by omega), readByte_writeByte_other _ _ (by omega),
    readByte_writeByte_other _ _ (by omega)]

/-- A word write leaves every other word alone. -/
theorem readWord_writeWord_other (m : Memory) {loc other : Nat} (v : Word) (h : other ≠ loc) :
    readWord (writeWord m loc v) other = readWord m other := by
  simp only [readWord]
  rw [readByte_writeWord_outside m v (by omega), readByte_writeWord_outside m v (by omega),
    readByte_writeWord_outside m v (by omega)]

/-- In canonical memory the word written is the word read back: each of its three bytes is the last one written to its address. -/
theorem readWord_writeWord_same {m : Memory} (hm : m.wf) (loc : Nat) (v : Word) : readWord (writeWord m loc v) loc = v := by
  have wf0 := writeByte_wf hm (3 * loc) (byteOfWord v 0)
  have wf1 := writeByte_wf wf0 (3 * loc + 1) (byteOfWord v 1)
  have byte0 : readByte (writeWord m loc v) (3 * loc) = byteOfWord v 0 := by
    rw [writeWord, readByte_writeByte_other _ _ (by omega), readByte_writeByte_other _ _ (by omega),
      readByte_writeByte_same hm]
  have byte1 : readByte (writeWord m loc v) (3 * loc + 1) = byteOfWord v 1 := by
    rw [writeWord, readByte_writeByte_other _ _ (by omega), readByte_writeByte_same wf0]
  have byte2 : readByte (writeWord m loc v) (3 * loc + 2) = byteOfWord v 2 := readByte_writeByte_same wf1 ..
  rw [readWord, byte0, byte1, byte2, wordOfBytes_byteOfWord]

/-- Settles O13: the three facts about a word write. -/
theorem wordReadAfterWrite : Obligations.WordReadAfterWrite := fun m loc v =>
  ⟨fun hm => readWord_writeWord_same hm loc v, fun _ h => readWord_writeWord_other m v h,
    fun _ h => readByte_writeWord_outside m v h⟩

/-- When a store is allowed (20_memory.md R55). -/
theorem storeAllowed_iff (s : State) (q : Word) :
    storeAllowed s q = true ↔ isAbs q = true ∨ q.toNat < s.bound.toNat := by
  simp [storeAllowed, BitVec.lt_def]

/-- What an allowed store does at a location that exists. -/
theorem store_done {s : State} {q : Word} (ha : isAbs q = true ∨ q.toNat < s.bound.toNat)
    (hl : location s q < s.params.memWords) (v : Word) :
    store s q v = .done { s with mem := writeWord s.mem (location s q) v } := by
  simp [store, (storeAllowed_iff s q).mpr ha, memWrite, hl]

/-- A store that is not allowed traps (20_memory.md R55). -/
theorem store_trap {s : State} {q : Word} (hr : isAbs q = false) (hb : s.bound.toNat ≤ q.toNat) (v : Word) :
    store s q v = .trap .storeProtect := by
  have refused : storeAllowed s q = false := by
    rw [← Bool.not_eq_true, storeAllowed_iff, hr]
    simpa using hb
  simp [store, refused]

/-- A word that CONTENTS gives is at a location that exists. -/
theorem location_lt_of_contents {s : State} {q d : Word} (h : contents s q = .ok d) :
    location s q < s.params.memWords := by
  rcases contents_cases s q with ⟨hl, _⟩ | ⟨_, e⟩
  · exact hl
  · simp [e] at h

/-- An instruction that computes Q first completes in the state `u`, where Q exists and the body is done and ends in `u`
(40_execution_cycle.md R111, R117). -/
theorem withAddress_completes {s t u : State} {a : Operand} {q : Word} {e : Ending} {body : Word → Stage (State × Ending)}
    (hq : ea s a = .done q) (hb : body q = .done (t, e)) (hu : t.endWith e = u) : withAddress s a body = .next u :=
  hu ▸ withAddress_done hq hb

/-- An instruction that only stores completes with its word at the location Q names, where the store is allowed. -/
theorem storing_done {s : State} {a : Operand} {q : Word} (hq : ea s a = .done q)
    (ha : isAbs q = true ∨ q.toNat < s.bound.toNat) (hl : location s q < s.params.memWords) (v : Word) :
    storing s a v = .next { s with mem := writeWord s.mem (location s q) v, p := s.p + 1 } :=
  withAddress_completes hq (by simp only [store_done ha hl, bind_done]; rfl) rfl

/-- An instruction that reads D and stores at Q completes with what it computes from D there, where the store is allowed. -/
theorem updating_done {s : State} {a : Operand} {q d : Word} (hq : ea s a = .done q) (hd : contents s q = .ok d)
    (ha : isAbs q = true ∨ q.toNat < s.bound.toNat) (f : Word → Word) (after : State → Word → State × Ending) :
    updating s a f after =
      .next ((after { s with mem := writeWord s.mem (location s q) (f d) } d).1.endWith
        (after { s with mem := writeWord s.mem (location s q) (f d) } d).2) :=
  withAddress_done hq (by simp only [hd, ofAccess_ok, bind_done, store_done ha (location_lt_of_contents hd)])

/-- In canonical memory CONTENTS after a store at Q is the word stored. -/
theorem contents_stored {s : State} {q : Word} (hm : s.mem.wf) (hl : location s q < s.params.memWords) (v : Word)
    (p : RelAddr) : contents { s with mem := writeWord s.mem (location s q) v, p := p } q = .ok v := by
  have read : contents { s with mem := writeWord s.mem (location s q) v, p := p } q =
      .ok (readWord (writeWord s.mem (location s q) v) (location s q)) := contents_ok hl
  rw [read, readWord_writeWord_same hm]

/-- The meaning of STA (R133). -/
theorem exec_sta_eq (a : Operand) (s : State) : exec (.sta a) s = storing s a s.ar := rfl

/-- The meaning of STB (R134). -/
theorem exec_stb_eq (a : Operand) (s : State) : exec (.stb a) s = storing s a s.br := rfl

/-- The meaning of STX (R135). -/
theorem exec_stx_eq (a : Operand) (s : State) : exec (.stx a) s = storing s a s.xr := rfl

/-- Settles O15: each is `storing` with its own register, and what reads say of a stored word holds for each of the three. -/
theorem storesPutTheirRegisterAtTheAddress : Obligations.StoresPutTheirRegisterAtTheAddress := by
  intro s a q hq ha hl
  have sta := (exec_sta_eq a s).trans (storing_done hq ha hl _)
  have stb := (exec_stb_eq a s).trans (storing_done hq ha hl _)
  have stx := (exec_stx_eq a s).trans (storing_done hq ha hl _)
  have reads {v : Word} {t : State} (hm : s.mem.wf)
      (h : .next { s with mem := writeWord s.mem (location s q) v, p := s.p + 1 } = (.next t : Result)) :
      contents t q = .ok v := by
    cases h
    exact contents_stored hm hl v _
  refine ⟨sta, stb, stx, fun t ht => ⟨fun hm => ?reads, fun b hb => ?frame⟩⟩
  case reads =>
    rw [sta, stb, stx]
    exact ⟨reads hm, reads hm, reads hm⟩
  case frame =>
    rw [sta, stb, stx] at ht
    rcases ht with ht | ht | ht <;> cases ht <;> exact readByte_writeWord_outside _ _ hb

/-- The meaning of XMA (R136). -/
theorem exec_xma_eq (a : Operand) (s : State) :
    exec (.xma a) s = updating s a (fun _ => s.ar) fun t d => ({ t with ar := d }, .step) := rfl

/-- Settles O16: XMA is `updating` with A stored and D put in A. -/
theorem exchangeSwapsMemoryAndA : Obligations.ExchangeSwapsMemoryAndA := fun s a _ _ hq hd ha =>
  ⟨(exec_xma_eq a s).trans (updating_done hq hd ha _ _), fun _ hb => readByte_writeWord_outside _ _ hb⟩

end Sys2Proof.Machine

/-! Arithmetic (42_arithmetic_logical.md): sums and differences modulo 2^24, in A and in memory. -/

namespace Sys2Proof.Machine

/-- The meaning of MIN (R142). -/
theorem exec_min_eq (a : Operand) (s : State) :
    exec (.min a) s = updating s a (fun d => d + 1) fun t _ => (t, .step) := rfl

/-- The meaning of ADM (R143). -/
theorem exec_adm_eq (a : Operand) (s : State) :
    exec (.adm a) s = updating s a (fun d => d + s.ar) fun t _ => (t, .step) := rfl

/-- The meaning of ADD (R140). -/
theorem exec_add_eq (a : Operand) (s : State) :
    exec (.add a) s = withOperand s a fun d => ({ s with ar := s.ar + d }, .step) := rfl

/-- The meaning of SUB (R141). -/
theorem exec_sub_eq (a : Operand) (s : State) :
    exec (.sub a) s = withOperand s a fun d => ({ s with ar := s.ar - d }, .step) := rfl

/-- Settles O17: each is `updating` with its own sum, a sum of words being one modulo 2^24. -/
theorem memoryIncrementAndAdd : Obligations.MemoryIncrementAndAdd := by
  intro s a q d hq hd ha
  exact ⟨⟨d + 1, BitVec.toNat_add d 1, (exec_min_eq a s).trans (updating_done hq hd ha _ _)⟩,
    ⟨d + s.ar, BitVec.toNat_add d s.ar, (exec_adm_eq a s).trans (updating_done hq hd ha _ _)⟩,
    fun v _ hb => readByte_writeWord_outside _ v hb⟩

/-- A sum of words is the exact sum modulo 2^24 (R147). -/
theorem add_toNat_int (v w : Word) : ((v + w).toNat : Int) = ((v.toNat : Int) + w.toNat) % 2 ^ 24 := by
  rw [BitVec.toNat_add]
  omega

/-- A difference of words is the exact difference modulo 2^24 (R147). -/
theorem sub_toNat_int (v w : Word) : ((v - w).toNat : Int) = ((v.toNat : Int) - w.toNat) % 2 ^ 24 := by
  have := w.isLt
  rw [BitVec.toNat_sub]
  omega

/-- Settles O18: each puts its own sum or difference in A, exact modulo 2^24. -/
theorem addAndSubtractWrap : Obligations.AddAndSubtractWrap := by
  intro s a q d hq hd
  exact ⟨⟨s.ar + d, add_toNat_int s.ar d, (exec_add_eq a s).trans (withOperand_setsA hq hd (s.ar + ·))⟩,
    ⟨s.ar - d, sub_toNat_int s.ar d, (exec_sub_eq a s).trans (withOperand_setsA hq hd (s.ar - ·))⟩⟩

end Sys2Proof.Machine

/-! Skips (43_skip.md): the signed comparison and the sign bit. -/

namespace Sys2Proof.Machine

/-- A word is negative if its sign bit is 1 (R157). -/
theorem isNegative_iff (v : Word) : isNegative v = true ↔ v.toNat ≥ 2 ^ 23 := isAbs_iff v

/-- The sign bit is the sign of the two's complement number. -/
theorem isNegative_iff_toInt (v : Word) : isNegative v = true ↔ v.toInt < 0 := by
  rw [isNegative_iff, BitVec.toInt_neg_iff]
  omega

/-- SKG's comparison is signed (R157). -/
theorem signedGreater_iff (v w : Word) : signedGreater v w = true ↔ v.toInt > w.toInt := decide_eq_true_iff

/-- The meaning of SKG (R152). -/
theorem exec_skg_eq (a : Operand) (s : State) :
    exec (.skg a) s = withOperand s a fun d => (s, skipIf (signedGreater s.ar d)) := rfl

/-- The meaning of SKN (R155). -/
theorem exec_skn_eq (a : Operand) (s : State) :
    exec (.skn a) s = withOperand s a fun d => (s, skipIf (isNegative d)) := rfl

/-- The meaning of SKR (R156). -/
theorem exec_skr_eq (a : Operand) (s : State) :
    exec (.skr a) s = updating s a (fun d => d - 1) fun t d => (t, skipIf (isNegative (d - 1))) := rfl

/-- Settles O21: each is `withOperand` over its own test of D, and each test is the condition its rule names. -/
theorem signedSkips : Obligations.SignedSkips := fun s a _ d hq hd =>
  ⟨(exec_skg_eq a s).trans (withOperand_skips hq hd (signedGreater s.ar) (signedGreater_iff s.ar d)),
    (exec_skn_eq a s).trans (withOperand_skips hq hd isNegative (isNegative_iff d))⟩

/-- Settles O22: SKR is `updating` with D - 1, and its test is on that same word. -/
theorem reduceMemoryAndSkip : Obligations.ReduceMemoryAndSkip := by
  intro s a q d hq hd ha
  refine ⟨⟨d - 1, sub_toNat_int d 1, ?_⟩, fun v _ hb => readByte_writeWord_outside _ v hb⟩
  have skr := (exec_skr_eq a s).trans (updating_done hq hd ha _ _)
  exact skr.trans (congrArg _ (endWith_skipIf _ (isNegative_iff_toInt (d - 1))))

end Sys2Proof.Machine

/-! Branches (44_branch.md), and the record a trap leaves (60_exceptions.md R236), by which a BRM that trapped is told apart. -/

namespace Sys2Proof.Machine

/-- The meaning of BRU (R160). -/
theorem exec_bru_eq (a : Operand) (s : State) :
    exec (.bru a) s = withAddress s a fun q => .done (s, .branch (low14 q)) := rfl

/-- The meaning of BRX (R161). -/
theorem exec_brx_eq (a : Operand) (s : State) :
    exec (.brx a) s = withAddress s a fun q =>
      .done ({ s with xr := s.xr + 1 }, if indexBit (s.xr + 1) then .branch (low14 q) else .step) := rfl

/-- The meaning of BRM (R163). -/
theorem exec_brm_eq (a : Operand) (s : State) :
    exec (.brm a) s = withAddress s a fun q =>
      (store s q (zext24 s.p)).bind fun t => .done (t, .branch (low14 (q + 1))) := rfl

/-- The meaning of BRR (R164). -/
theorem exec_brr_eq (a : Operand) (s : State) :
    exec (.brr a) s = withOperand s a fun d => (s, .branch (low14 (d + 1))) := rfl

/-- BRU goes to the low 14 bits of Q. -/
theorem exec_bru {s : State} {a : Operand} {q : Word} (hq : ea s a = .done q) :
    exec (.bru a) s = .next { s with p := low14 q } := (exec_bru_eq a s).trans (withAddress_completes hq rfl rfl)

/-- BRM stores its address and goes to the word after Q, where the store is allowed. -/
theorem exec_brm {s : State} {a : Operand} {q : Word} (hq : ea s a = .done q)
    (ha : isAbs q = true ∨ q.toNat < s.bound.toNat) (hl : location s q < s.params.memWords) :
    exec (.brm a) s =
      .next { s with mem := writeWord s.mem (location s q) (zext24 s.p), p := low14 (q + 1) } :=
  (exec_brm_eq a s).trans (withAddress_completes hq (by simp only [store_done ha hl, bind_done]; rfl) rfl)

/-- BRR goes to the word after the low 14 bits of D. -/
theorem exec_brr {s : State} {a : Operand} {q d : Word} (hq : ea s a = .done q) (hd : contents s q = .ok d) :
    exec (.brr a) s = .next { s with p := low14 (d + 1) } := (exec_brr_eq a s).trans (withOperand_done hq hd _)

/-- The relative address after a word's low 14 bits. -/
theorem low14_add_one_toNat (v : Word) : (low14 (v + 1)).toNat = (v.toNat + 1) % 2 ^ 14 := by
  have sum : (v + 1).toNat = (v.toNat + 1) % 2 ^ 24 := BitVec.toNat_add v 1
  rw [low14_toNat, sum]
  omega

/-- Settles O23: the low 14 bits of Q are Q modulo 2^14. -/
theorem branchGoesToTheAddress : Obligations.BranchGoesToTheAddress := fun _ _ q hq =>
  ⟨⟨low14 q, low14_toNat q, exec_bru hq⟩, rfl⟩

/-- BRX tests the bit of weight 2^14 (R161). -/
theorem indexBit_eq (x : Word) : indexBit x = x.getLsbD 14 := by
  have mask : 0o40000#24 = BitVec.twoPow 24 14 := rfl
  rw [indexBit, mask, BitVec.and_twoPow]
  cases x.getLsbD 14 <;> rfl

/-- Settles O24: the bit BRX tests is bit 14 of the incremented X, and either value of it gives its own ending. -/
theorem indexBranchCountsX : Obligations.IndexBranchCountsX := by
  intro s a q hq
  rw [exec_brx_eq, withAddress_done hq rfl, indexBit_eq]
  cases (s.xr + 1).getLsbD 14 <;> rfl

/-- Settles O25: the low 14 bits of Q + 1 are Q + 1 modulo 2^14. -/
theorem markPlaceStoresItsAddress : Obligations.MarkPlaceStoresItsAddress := fun _ _ q hq ha hl =>
  ⟨⟨low14 (q + 1), low14_add_one_toNat q, exec_brm hq ha hl⟩, fun _ hb => readByte_writeWord_outside _ _ hb⟩

/-- Settles O26: the low 14 bits of D + 1 are D + 1 modulo 2^14. -/
theorem returnGoesAfterTheLink : Obligations.ReturnGoesAfterTheLink := fun _ _ _ d hq hd =>
  ⟨⟨low14 (d + 1), low14_add_one_toNat d, exec_brr hq hd⟩, rfl⟩

/-- A trap sequence is seen with its cause. -/
@[simp] theorem trapTaken_trapped (s : State) (c : Cause) : trapTaken s (s.trapped c) = some c := by
  simp [trapTaken, State.trapped]

/-- Where nothing is emitted no trap was taken. -/
theorem trapTaken_of_events_eq {s t : State} (h : t.events = s.events) : trapTaken s t = none := by
  simp [trapTaken, h]

/-- The word after the one a link was made of. -/
theorem low14_zext24_add_one (p : RelAddr) : low14 (zext24 p + 1) = p + 1 := by
  apply BitVec.eq_of_toNat_eq
  rw [low14_add_one_toNat, zext24_toNat, BitVec.toNat_add]
  rfl

/-- Settles O27: a BRM that did not trap has stored its address at the location of Q, and that is the word the BRR reads. -/
theorem returnAfterMarkPlace : Obligations.ReturnAfterMarkPlace := by
  intro s t a b q hm hq hbrm htrap hb
  rcases store_cases s q (zext24 s.p) with ⟨ha, hl, -⟩ | ⟨-, -, e⟩ | ⟨-, e⟩
  · rw [exec_brm hq ((storeAllowed_iff s q).mp ha) hl] at hbrm
    cases hbrm
    rw [exec_brr hb (contents_stored hm hl _ _), low14_zext24_add_one]
  · rw [exec_brm_eq] at hbrm
    simp [withAddress, hq, e] at hbrm
  · rw [exec_brm_eq] at hbrm
    have trapped : takeTrap .storeProtect s = .next t := by simpa [withAddress, hq, e] using hbrm
    obtain ⟨-, rfl⟩ := takeTrap_next trapped
    simp at htrap

end Sys2Proof.Machine

/-! SHIFT (45_shift.md): each kind repeated is its closed form on the 48-bit pair. -/

namespace Sys2Proof.Machine

/-- A shift of `n` places is one place `n` times (R170). -/
theorem shiftTimes_eq_iterate (kind : ShiftKind) (n : Nat) (ab : DoubleWord) :
    shiftTimes kind n ab = (oneShift kind)^[n] ab := by
  induction n generalizing ab with
  | zero => rfl
  | succ n ih => exact ih _

/-- One place more, at the end. -/
theorem shiftTimes_succ (kind : ShiftKind) (n : Nat) (ab : DoubleWord) :
    shiftTimes kind (n + 1) ab = oneShift kind (shiftTimes kind n ab) := by
  simp only [shiftTimes_eq_iterate, Function.iterate_succ_apply']

/-- The bits of a pair moved one place left, with `fill` brought in. -/
theorem getLsbD_movedLeft (ab : DoubleWord) (fill : BitVec 1) {k : Nat} (hk : k < 48) :
    (ab.extractLsb' 0 47 ++ fill).getLsbD k = if k = 0 then fill.getLsbD 0 else ab.getLsbD (k - 1) := by
  rw [BitVec.getLsbD_append, BitVec.getLsbD_extractLsb']
  rcases k with _ | k
  · rfl
  · have : k < 47 := by omega
    simp [this]

/-- The bits of a pair moved one place right, with `fill` brought in. -/
theorem getLsbD_movedRight (ab : DoubleWord) (fill : BitVec 1) {k : Nat} (hk : k < 48) :
    (fill ++ ab.extractLsb' 1 47).getLsbD k = if k = 47 then fill.getLsbD 0 else ab.getLsbD (k + 1) := by
  rw [BitVec.getLsbD_append, BitVec.getLsbD_extractLsb']
  rcases Nat.lt_or_eq_of_le (Nat.le_of_lt_succ hk) with low | rfl
  · simp [low, Nat.ne_of_lt low, Nat.add_comm]
  · simp

/-- The bits of a pair cycled one place left. -/
theorem getLsbD_leftCycle (ab : DoubleWord) {k : Nat} (hk : k < 48) :
    (oneShift .leftCycle ab).getLsbD k = ab.getLsbD (if k = 0 then 47 else k - 1) := by
  rw [oneShift, getLsbD_movedLeft ab _ hk, BitVec.getLsbD_extractLsb']
  split <;> rfl

/-- The bits of a pair cycled one place right. -/
theorem getLsbD_rightCycle (ab : DoubleWord) {k : Nat} (hk : k < 48) :
    (oneShift .rightCycle ab).getLsbD k = ab.getLsbD (if k = 47 then 0 else k + 1) := by
  rw [oneShift, getLsbD_movedRight ab _ hk, BitVec.getLsbD_extractLsb']
  split <;> rfl

/-- The bits of a pair rotated left. -/
theorem getLsbD_rotatedLeft (ab : DoubleWord) (n : Nat) {k : Nat} (hk : k < 48) :
    (ab.rotateLeft n).getLsbD k = ab.getLsbD (if k < n % 48 then 48 - n % 48 + k else k - n % 48) := by
  rw [BitVec.getLsbD_rotateLeft]
  by_cases h : k < n % 48 <;> simp [h, hk]

/-- The bits of a pair rotated right. -/
theorem getLsbD_rotatedRight (ab : DoubleWord) (n : Nat) {k : Nat} (hk : k < 48) :
    (ab.rotateRight n).getLsbD k = ab.getLsbD (if k < 48 - n % 48 then n % 48 + k else k - (48 - n % 48)) := by
  rw [BitVec.getLsbD_rotateRight]
  by_cases h : k < 48 - n % 48 <;> simp [h, hk]

/-- A rotation to the left goes on by a cycle of one place. -/
theorem leftCycle_rotateLeft (ab : DoubleWord) (n : Nat) :
    oneShift .leftCycle (ab.rotateLeft n) = ab.rotateLeft (n + 1) := by
  apply BitVec.eq_of_getLsbD_eq
  intro k hk
  rw [getLsbD_leftCycle _ hk, getLsbD_rotatedLeft _ _ (by split <;> omega), getLsbD_rotatedLeft _ _ hk]
  congr 1
  split_ifs <;> omega

/-- A rotation to the right goes on by a cycle of one place. -/
theorem rightCycle_rotateRight (ab : DoubleWord) (n : Nat) :
    oneShift .rightCycle (ab.rotateRight n) = ab.rotateRight (n + 1) := by
  apply BitVec.eq_of_getLsbD_eq
  intro k hk
  rw [getLsbD_rightCycle _ hk, getLsbD_rotatedRight _ _ (by split <;> omega), getLsbD_rotatedRight _ _ hk]
  congr 1
  split_ifs <;> omega

/-- LSH by one place. -/
theorem oneShift_left (ab : DoubleWord) : oneShift .left ab = ab <<< 1 := by
  apply BitVec.eq_of_getLsbD_eq
  intro k hk
  rw [oneShift, getLsbD_movedLeft ab _ hk, BitVec.getLsbD_shiftLeft]
  rcases k with _ | k <;> simp [hk]

/-- LRSH by one place. -/
theorem oneShift_logicalRight (ab : DoubleWord) : oneShift .logicalRight ab = ab >>> 1 := by
  apply BitVec.eq_of_getLsbD_eq
  intro k hk
  rw [oneShift, getLsbD_movedRight ab _ hk, BitVec.getLsbD_ushiftRight, Nat.add_comm 1 k]
  split
  · next h => simp [h]
  · rfl

/-- RSH by one place. -/
theorem oneShift_right (ab : DoubleWord) : oneShift .right ab = ab.sshiftRight 1 := by
  apply BitVec.eq_of_getLsbD_eq
  intro k hk
  rw [oneShift, getLsbD_movedRight ab _ hk, BitVec.getLsbD_sshiftRight, Nat.add_comm 1 k]
  split
  · next h =>
    subst h
    simp [BitVec.msb_eq_getLsbD_last]
  · have : k + 1 < 48 := by omega
    simp [this, hk]

/-- A cycle right undoes a cycle left, by one place. -/
theorem rightCycle_leftCycle : Function.LeftInverse (oneShift .rightCycle) (oneShift .leftCycle) := by
  intro ab
  apply BitVec.eq_of_getLsbD_eq
  intro k hk
  rw [getLsbD_rightCycle _ hk, getLsbD_leftCycle _ (by split <;> omega)]
  congr 1
  by_cases h : k = 47 <;> simp [h]

/-- A cycle left undoes a cycle right, by one place. -/
theorem leftCycle_rightCycle : Function.LeftInverse (oneShift .leftCycle) (oneShift .rightCycle) := by
  intro ab
  apply BitVec.eq_of_getLsbD_eq
  intro k hk
  rw [getLsbD_leftCycle _ hk, getLsbD_rightCycle _ (by split <;> omega)]
  congr 1
  rcases k with _ | k
  · rfl
  · have : k ≠ 47 := by omega
    simp [this]

/-- Settles O30: the cycles by one place undo each other, and so do as many of the one as of the other. -/
theorem rightCycleUndoesLeftCycle : Obligations.RightCycleUndoesLeftCycle := by
  intro c ab
  simp only [shiftTimes_eq_iterate]
  exact ⟨rightCycle_leftCycle.iterate c ab, leftCycle_rightCycle.iterate c ab⟩

/-- The pair moved `n` places, in closed form (R171 to R176). -/
def shiftedPair (kind : ShiftKind) (n : Nat) (ab : DoubleWord) : DoubleWord :=
  match kind with
  | .leftCycle => ab.rotateLeft (n % 48)
  | .left => ab <<< n
  | .right => ab.sshiftRight n
  | .logicalRight => ab >>> n
  | .rightCycle => ab.rotateRight (n % 48)

/-- One place after one place is the closed form, for every kind and count: no count is clipped (R176). -/
theorem shiftTimes_eq_shiftedPair (kind : ShiftKind) (n : Nat) (ab : DoubleWord) :
    shiftTimes kind n ab = shiftedPair kind n ab := by
  induction n with
  | zero =>
    cases kind with
    | leftCycle | rightCycle =>
      refine BitVec.eq_of_getLsbD_eq fun k hk => ?_
      simp [shiftTimes, shiftedPair, getLsbD_rotatedLeft _ _ hk, getLsbD_rotatedRight _ _ hk, hk,
        -BitVec.getLsbD_eq_getElem]
    | left | right | logicalRight => simp [shiftTimes, shiftedPair]
  | succ n ih =>
    rw [shiftTimes_succ, ih]
    cases kind with
    | leftCycle => simpa only [shiftedPair, BitVec.rotateLeft_mod_eq_rotateLeft] using leftCycle_rotateLeft ab n
    | left => exact (oneShift_left _).trans (BitVec.shiftLeft_add ab n 1).symm
    | right => exact (oneShift_right _).trans BitVec.sshiftRight_add.symm
    | logicalRight => exact (oneShift_logicalRight _).trans (BitVec.shiftRight_add ab n 1).symm
    | rightCycle => simpa only [shiftedPair, BitVec.rotateRight_mod_eq_rotateRight] using rightCycle_rotateRight ab n

/-- The count of SHIFT is Q's low 6 bits (30_encoding.md R90). -/
theorem shiftCount_eq (q : Word) : shiftCount q = q.toNat % 64 := by
  simp [shiftCount]

/-- What a shift that completes leaves: the pair moved, and P stepped (R170). -/
theorem withAddress_shiftPair {s : State} {a : Operand} {q : Word} (hq : ea s a = .done q) (kind : ShiftKind)
    {body : Word → Stage (State × Ending)} (hb : body q = .done (shiftPair kind q s, .step)) :
    withAddress s a body = .next { s with
      ar := (shiftedPair kind (q.toNat % 64) (s.ar ++ s.br)).extractLsb' 24 24
      br := (shiftedPair kind (q.toNat % 64) (s.ar ++ s.br)).extractLsb' 0 24
      p := s.p + 1 } := by
  rw [← shiftCount_eq, ← shiftTimes_eq_shiftedPair]
  exact withAddress_completes hq hb rfl

/-- The meaning of LCY (R171). -/
theorem exec_lcy_eq (w : RelAddr) (s : State) :
    exec (.lcy w) s = withAddress s (.direct w) fun q => .done (shiftPair .leftCycle q s, .step) := rfl

/-- The meaning of LSH (R172). -/
theorem exec_lsh_eq (w : RelAddr) (s : State) :
    exec (.lsh w) s = withAddress s (.direct w) fun q => .done (shiftPair .left q s, .step) := rfl

/-- The meaning of RSH (R173). -/
theorem exec_rsh_eq (w : RelAddr) (s : State) :
    exec (.rsh w) s = withAddress s (.direct w) fun q => .done (shiftPair .right q s, .step) := rfl

/-- The meaning of LRSH (R174). -/
theorem exec_lrsh_eq (w : RelAddr) (s : State) :
    exec (.lrsh w) s = withAddress s (.direct w) fun q => .done (shiftPair .logicalRight q s, .step) := rfl

/-- The meaning of RCY (R175). -/
theorem exec_rcy_eq (w : RelAddr) (s : State) :
    exec (.rcy w) s = withAddress s (.direct w) fun q => .done (shiftPair .rightCycle q s, .step) := rfl

/-- Settles O28: each row is `withAddress` with the address W over the pair moved by its kind. -/
theorem shiftRowsMoveThePair : Obligations.ShiftRowsMoveThePair := by
  rintro s w c rfl
  rw [← zext24_toNat]
  have direct := ea_direct s w
  exact ⟨(exec_lcy_eq w s).trans (withAddress_shiftPair direct .leftCycle rfl),
    (exec_lsh_eq w s).trans (withAddress_shiftPair direct .left rfl),
    (exec_rsh_eq w s).trans (withAddress_shiftPair direct .right rfl),
    (exec_lrsh_eq w s).trans (withAddress_shiftPair direct .logicalRight rfl),
    (exec_rcy_eq w s).trans (withAddress_shiftPair direct .rightCycle rfl)⟩

/-- The kind of SHIFT as a number: `Q[10:8]` (30_encoding.md R90). -/
theorem shiftKind_toNat (q : Word) : (shiftKind q).toNat = q.toNat / 2 ^ 8 % 8 := by
  simp [shiftKind, Nat.shiftRight_eq_div_pow]

/-- What SHIFT does once Q is known (R170, R177). -/
def shiftBody (s : State) (q : Word) : Stage (State × Ending) :=
  match shiftKindOf (shiftKind q) with
  | some kind => .done (shiftPair kind q s, .step)
  | none => .trap .illegalShift

/-- The meaning of SHIFT (R170). -/
theorem exec_shift_eq (a : Operand) (s : State) : exec (.shift a) s = withAddress s a (shiftBody s) := rfl

/-- The kind that a number from 0 to 4 names, in closed form (30_encoding.md R92). -/
theorem shiftKindOf_of_le {q : Word} (h : q.toNat / 2 ^ 8 % 8 ≤ 4) :
    ∃ kind, shiftKindOf (shiftKind q) = some kind ∧ ∀ n ab, shiftedPair kind n ab =
      if q.toNat / 2 ^ 8 % 8 = 0 then ab.rotateLeft (n % 48)
      else if q.toNat / 2 ^ 8 % 8 = 1 then ab <<< n
      else if q.toNat / 2 ^ 8 % 8 = 2 then ab.sshiftRight n
      else if q.toNat / 2 ^ 8 % 8 = 3 then ab >>> n
      else ab.rotateRight (n % 48) := by
  simp only [shiftKindOf, shiftKind_toNat]
  generalize q.toNat / 2 ^ 8 % 8 = k at h
  interval_cases k <;> exact ⟨_, rfl, fun _ _ => rfl⟩

/-- Settles O29: the kind names a closed form, and SHIFT is `withAddress` over the pair moved by it. -/
theorem shiftKindComesFromTheAddress : Obligations.ShiftKindComesFromTheAddress := by
  intro s a q hq _ _ hk
  obtain ⟨kind, named, closed⟩ := shiftKindOf_of_le hk
  refine ⟨shiftedPair kind (q.toNat % 64) (s.ar ++ s.br), closed _ _, ?_⟩
  rw [exec_shift_eq]
  exact withAddress_shiftPair hq kind (by rw [shiftBody, named])

end Sys2Proof.Machine

/-! RCH (46_register_change.md): the rows, and the sub-case that Q names at run time. -/

namespace Sys2Proof.Machine

/-- A row that changes the state by `f` and steps P (R180). -/
theorem row_completes {s : State} (w : RelAddr) {i : Instr} (f : State → State)
    (hi : exec i s = withAddress s (.direct w) fun _ => .done (f s, .step)) : exec i s = .next ((f s).endWith .step) :=
  hi.trans (withAddress_done (ea_direct s w) rfl)

/-- Settles O31: each row is the change of whole words that it is named after, and P steps. -/
theorem registerChangeRows : Obligations.RegisterChangeRows := fun _ w =>
  ⟨row_completes w clearAB rfl, row_completes w clearA rfl, row_completes w clearB rfl, row_completes w clearX rfl,
    row_completes w copyAB rfl, row_completes w copyBA rfl, row_completes w exchangeAB rfl, row_completes w copyBX rfl,
    row_completes w copyXB rfl, row_completes w exchangeXB rfl, row_completes w copyXA rfl, row_completes w copyAX rfl,
    row_completes w exchangeXA rfl⟩

/-- The meaning of RCH (R180). -/
theorem exec_rch_eq (a : Operand) (s : State) :
    exec (.rch a) s = withAddress s a fun q => .done (change q s, .step) := rfl

/-- The meaning of XCA (R181). -/
theorem exec_xca_eq (w : RelAddr) (s : State) :
    exec (.xca w) s = withAddress s (.direct w) fun q => .done (exchangeControl q s, .step) := rfl

/-- The meaning of CCA (R182). -/
theorem exec_cca_eq (w : RelAddr) (s : State) :
    exec (.cca w) s = withAddress s (.direct w) fun q => .done (copyControl q s, .step) := rfl

/-- The control register number of a direct word is W modulo 4 (30_encoding.md R90). -/
theorem controlField_of_mod {w : RelAddr} {n : BitVec 2} (h : w.toNat % 4 = n.toNat) : controlField (zext24 w) = n :=
  BitVec.eq_of_toNat_eq (by simp [controlField, h])

/-- XCA and CCA on the control register `n` (R181, R182). -/
theorem exec_xca_cca {s : State} {w : RelAddr} {n : BitVec 2} (h : w.toNat % 4 = n.toNat) :
    exec (.xca w) s = .next { ({ s with ar := s.control n }).setControl n s.ar with p := s.p + 1 } ∧
      exec (.cca w) s = .next { s with ar := s.control n, p := s.p + 1 } := by
  have number := controlField_of_mod h
  have exchanged : exchangeControl (zext24 w) s = ({ s with ar := s.control n }).setControl n s.ar := by
    rw [exchangeControl, number]
  have copied : copyControl (zext24 w) s = { s with ar := s.control n } := by rw [copyControl, number]
  constructor
  · rw [exec_xca_eq, withAddress_done (ea_direct s w) rfl, exchanged, State.endWith, setControl_keeps_p]
    rfl
  · rw [exec_cca_eq, withAddress_done (ea_direct s w) rfl, copied]
    rfl

/-- The negative of a word is the exact negative modulo 2^24 (R196). -/
theorem neg_toNat_int (v : Word) : ((-v).toNat : Int) = (-(v.toNat : Int)) % 2 ^ 24 := by
  have := v.isLt
  rw [BitVec.toNat_neg]
  omega

/-- Settles O32: the four numbers name the four control registers, and CNA is a row of its own. -/
theorem controlRegisterRows : Obligations.ControlRegisterRows := fun s w =>
  ⟨fun h => exec_xca_cca (n := 0) h, fun h => exec_xca_cca (n := 1) h, fun h => exec_xca_cca (n := 2) h,
    fun h => exec_xca_cca (n := 3) h, -s.ar, neg_toNat_int s.ar, row_completes w negateA rfl⟩

/-- RCH depends on Q by two of its fields (R180). -/
theorem change_congr {q r : Word} (sub : changeField q = changeField r) (number : controlField q = controlField r)
    (s : State) : change q s = change r s := by
  simp only [change, exchangeControl, copyControl, sub, number]

/-- XCA changes nothing but A and the control registers (R181). -/
theorem exchangeControl_frame (q : Word) (s : State) :
    exchangeControl q s =
      { s with ar := (exchangeControl q s).ar, mode := (exchangeControl q s).mode, rel := (exchangeControl q s).rel,
               ioctl := (exchangeControl q s).ioctl, bound := (exchangeControl q s).bound } := by
  unfold exchangeControl
  rcases control_cases (controlField q) with h | h | h | h <;> rw [h] <;> rfl

/-- RCH changes nothing but A, B, X and the control registers (R180). -/
theorem change_frame (q : Word) (s : State) :
    change q s = { s with ar := (change q s).ar, br := (change q s).br, xr := (change q s).xr, mode := (change q s).mode,
                          rel := (change q s).rel, ioctl := (change q s).ioctl, bound := (change q s).bound } := by
  unfold change
  split
  case h_1 =>
    rw [exchangeControl_frame q s]
  all_goals rfl

/-- The sub-case of RCH as a number: `Q[11:8]` (30_encoding.md R90). -/
theorem changeField_toNat (q : Word) : (changeField q).toNat = q.toNat / 2 ^ 8 % 16 := by
  simp [changeField, Nat.shiftRight_eq_div_pow]

/-- The sub-case of a direct RCH as a number: `W[11:8]` (30_encoding.md R90). -/
theorem changeOfAddress_toNat (w : RelAddr) : (changeOfAddress w).toNat = w.toNat / 2 ^ 8 % 16 := by
  simp [changeOfAddress, Nat.shiftRight_eq_div_pow]

/-- The control register number as a number: `Q[1:0]` (30_encoding.md R90). -/
theorem controlField_toNat (q : Word) : (controlField q).toNat = q.toNat % 4 := by
  simp [controlField]

/-- RCH sees the low 14 bits of Q alone. -/
theorem change_low14 (q : Word) (s : State) : change (zext24 (low14 q)) s = change q s := by
  apply change_congr
  · apply BitVec.eq_of_toNat_eq
    rw [changeField_toNat, changeField_toNat, zext24_toNat, low14_toNat]
    omega
  · apply BitVec.eq_of_toNat_eq
    rw [controlField_toNat, controlField_toNat, zext24_toNat, low14_toNat]
    omega

/-- A direct RCH word's row is the sub-case that its address holds (30_encoding.md R93). -/
theorem exec_decodeChange (w : RelAddr) (s : State) :
    exec (decodeChange (.direct w)) s = withAddress s (.direct w) fun q => .done (change q s, .step) := by
  have field : (changeField (zext24 w)).toNat = (changeOfAddress w).toNat := by
    rw [changeField_toNat, changeOfAddress_toNat, zext24_toNat]
  rw [withAddress_done (ea_direct s w) rfl]
  simp only [decodeChange, Operand.runTime, change, field]
  generalize hk : (changeOfAddress w).toNat = k
  have range : k < 16 := hk ▸ (changeOfAddress w).isLt
  interval_cases k <;> rfl

/-- Settles O33: RCH and the row complete with `change` for two words that agree in their low 14 bits, and `change` keeps to its
frame. -/
theorem registerChangeComesFromTheAddress : Obligations.RegisterChangeComesFromTheAddress := by
  intro s a q hq
  have rch : exec (.rch a) s = .next ((change q s).endWith .step) := (exec_rch_eq a s).trans (withAddress_done hq rfl)
  have row : exec (decodeChange (.direct (low14 q))) s = .next ((change q s).endWith .step) := by
    rw [exec_decodeChange, withAddress_done (ea_direct s (low14 q)) rfl, change_low14]
  refine ⟨?_, _, rch, ?_⟩
  · rw [rch, decodeWord_encodeMachine]
    exact row.symm
  · rw [change_frame q s]
    rfl

end Sys2Proof.Machine

/-! UPS (48_io_and_ups.md): the rows, and the sub-case that Q names at run time; direct words of SHIFT and UPS. -/

namespace Sys2Proof.Machine

/-- The meaning of STR (R213). -/
theorem exec_str_eq (w : RelAddr) (s : State) :
    exec (.str w) s = withAddress s (.direct w) fun q => .done (strobe q s, .step) := rfl

/-- The meaning of UPR (R216). -/
theorem exec_upr_eq (w : RelAddr) (s : State) :
    exec (.upr w) s = withAddress s (.direct w) fun _ => .done (unprotect s, .step) := rfl

/-- The meaning of PRO (R215). -/
theorem exec_pro_eq (w : RelAddr) (s : State) :
    exec (.pro w) s = withAddress s (.direct w) fun q => .done (protect q s, .step) := rfl

/-- MODE bit 3 is the bit of weight 2^20, and setting it leaves MODE's other bits alone (10_state.md R31). -/
theorem getLsbD_withScheduleBit (mode : Word) (b : Bool) (k : Nat) :
    (withScheduleBit mode b).getLsbD k = if k = 20 then b else mode.getLsbD k := by
  have mask : 0o4000000#24 = BitVec.twoPow 24 20 := rfl
  rcases Nat.lt_or_ge k 24 with hk | hk
  · rw [withScheduleBit, mask]
    cases b <;> by_cases h : k = 20 <;> simp [BitVec.getLsbD_twoPow, h, hk, eq_comm, -BitVec.getLsbD_eq_getElem]
  · simp [BitVec.getLsbD_of_ge _ k hk, show k ≠ 20 by omega]

/-- What PRO leaves (R215). -/
theorem exec_pro (w : RelAddr) (s : State) :
    exec (.pro w) s = .next { s with
      mode := withScheduleBit s.mode s.sched, sched := false, prot := s.prot ||| signalParameter (zext24 w)
      events := .protect (signalParameter (zext24 w)) :: s.events, p := s.p + 1 } :=
  (exec_pro_eq w s).trans (withAddress_completes (ea_direct s w) rfl rfl)

/-- What UPR leaves (R216). -/
theorem exec_upr (w : RelAddr) (s : State) :
    exec (.upr w) s = .next { s with
      prot := 0, sched := s.mode.getLsbD 20, events := .unprotect :: s.events, p := s.p + 1 } :=
  (exec_upr_eq w s).trans (withAddress_completes (ea_direct s w) rfl rfl)

/-- What STR leaves (R213). -/
theorem exec_str (w : RelAddr) (s : State) :
    exec (.str w) s = .next { s with events := .strobe (signalParameter (zext24 w)) :: s.events, p := s.p + 1 } :=
  (exec_str_eq w s).trans (withAddress_completes (ea_direct s w) rfl rfl)

/-- The parameter of UPS as a number: `Q[7:0]` (30_encoding.md R90). -/
theorem signalParameter_toNat (q : Word) : (signalParameter q).toNat = q.toNat % 256 := by
  simp [signalParameter]

/-- Settles O39: the parameter is W modulo 256, and PRO's MODE differs in bit 3 alone. -/
theorem signalRows : Obligations.SignalRows := by
  intro s w m hm
  obtain rfl : signalParameter (zext24 w) = m :=
    BitVec.eq_of_toNat_eq (by rw [signalParameter_toNat, zext24_toNat, hm])
  exact ⟨exec_str w s,
    ⟨withScheduleBit s.mode s.sched, by rw [getLsbD_withScheduleBit, if_pos rfl],
      fun k hk => by rw [getLsbD_withScheduleBit, if_neg hk], exec_pro w s⟩,
    exec_upr w s⟩

/-- Settles O40: UPR reads the bit that PRO wrote. -/
theorem unprotectRestoresScheduleMode : Obligations.UnprotectRestoresScheduleMode := by
  intro s t w v h
  rw [exec_pro] at h
  cases h
  refine ⟨_, exec_upr v _, ?_, rfl, rfl⟩
  exact (getLsbD_withScheduleBit _ _ _).trans (if_pos rfl)

/-- UPS sees the low 14 bits of Q alone. -/
theorem signal_low14 (q : Word) (s : State) : signal (zext24 (low14 q)) s = signal q s := by
  have sub : signalField (zext24 (low14 q)) = signalField q := by
    apply BitVec.eq_of_toNat_eq
    rw [signalField_toNat, signalField_toNat, zext24_toNat, low14_toNat]
    omega
  have parameter : signalParameter (zext24 (low14 q)) = signalParameter q := by
    apply BitVec.eq_of_toNat_eq
    rw [signalParameter_toNat, signalParameter_toNat, zext24_toNat, low14_toNat]
    omega
  simp only [signal, strobe, protect, sub, parameter]

/-- A direct UPS word's row is the sub-case that its address holds (30_encoding.md R94). -/
theorem exec_decodeSignal (w : RelAddr) (s : State) :
    exec (decodeSignal (.direct w)) s = withAddress s (.direct w) fun q => signal q s := by
  have field : (signalField (zext24 w)).toNat = (signalOfAddress w).toNat := by
    rw [signalField_toNat, signalOfAddress_toNat, zext24_toNat]
  simp only [withAddress, ea_direct, bind_done, decodeSignal, Operand.runTime, signal, field]
  generalize hk : (signalOfAddress w).toNat = k
  have range : k < 4 := hk ▸ (signalOfAddress w).isLt
  interval_cases k <;> rfl

/-- The sub-cases 0, 1 and 2 of UPS complete (R212). -/
theorem signal_done {q : Word} (h : q.toNat / 2 ^ 8 % 4 ≠ 3) (s : State) :
    ∃ t, signal q s = .done (t, .step) ∧
      t = { s with mode := t.mode, sched := t.sched, prot := t.prot, events := t.events } := by
  simp only [signal, signalField_toNat]
  have range : q.toNat / 2 ^ 8 % 4 < 4 := Nat.mod_lt _ (by decide)
  generalize q.toNat / 2 ^ 8 % 4 = k at h range
  interval_cases k
  · exact ⟨_, rfl, rfl⟩
  · exact ⟨_, rfl, rfl⟩
  · exact ⟨_, rfl, rfl⟩
  · exact absurd rfl h

/-- Settles O41: UPS and the row are `signal` of two words that agree in their low 14 bits. -/
theorem signalComesFromTheAddress : Obligations.SignalComesFromTheAddress := by
  intro s a q hq
  refine ⟨?_, fun h => ?_⟩
  · rw [decodeWord_encodeMachine]
    refine Eq.trans ?_ (exec_decodeSignal (low14 q) s).symm
    rw [exec_ups_eq, withAddress, withAddress, hq, ea_direct, bind_done, bind_done, signal_low14]
  · obtain ⟨t, done, frame⟩ := signal_done h s
    refine ⟨_, (exec_ups_eq a s).trans (withAddress_done hq done), ?_⟩
    rw [frame]
    rfl

/-- The kind of a direct SHIFT as a number: `W[10:8]` (30_encoding.md R90). -/
theorem kindOfAddress_toNat (w : RelAddr) : (kindOfAddress w).toNat = w.toNat / 2 ^ 8 % 8 := by
  simp [kindOfAddress, Nat.shiftRight_eq_div_pow]

/-- A direct SHIFT word's row is the kind that its address holds (30_encoding.md R92). -/
theorem exec_decodeShift (w : RelAddr) (s : State) :
    exec (decodeShift (.direct w)) s = withAddress s (.direct w) (shiftBody s) := by
  have field : (shiftKind (zext24 w)).toNat = (kindOfAddress w).toNat := by
    rw [shiftKind_toNat, kindOfAddress_toNat, zext24_toNat]
  simp only [withAddress, ea_direct, bind_done, decodeShift, Operand.runTime, shiftBody, shiftKindOf, field]
  generalize hk : (kindOfAddress w).toNat = k
  have range : k < 8 := hk ▸ (kindOfAddress w).isLt
  interval_cases k <;> rfl

/-- Settles O5: for each of the three codes, its rows by the sub-case that the address holds. -/
theorem subcaseRowsMeanTheirParent : Obligations.SubcaseRowsMeanTheirParent := by
  intro s w
  simp only [decodeWord_encodeMachine]
  exact ⟨exec_decodeShift w s, exec_decodeChange w s, exec_decodeSignal w s⟩

end Sys2Proof.Machine

/-! UPOT and UPIN (48_io_and_ups.md), pops (49_pops.md), and what EXU completes with (47_miscellaneous.md R201). -/

namespace Sys2Proof.Machine

/-- The meaning of UPOT (R210). -/
theorem exec_upot_eq (a : Operand) (s : State) :
    exec (.upot a) s = withAddress s a fun _ => .done (s.emit (.output s.ar s.br), .step) := rfl

/-- The meaning of UPIN (R211). -/
theorem exec_upin_eq (a : Operand) (s : State) :
    exec (.upin a) s = withAddress s a fun _ =>
      .done (({ s with br := drawnInput s, draws := s.draws + 1 }).emit (.input s.ar (drawnInput s)), .step) := rfl

/-- Settles O38: both are `withAddress` over a body that is always done. -/
theorem outputAndInput : Obligations.OutputAndInput := fun s a _ hq =>
  ⟨(exec_upot_eq a s).trans (withAddress_completes hq rfl rfl),
    (exec_upin_eq a s).trans (withAddress_completes hq rfl rfl)⟩

/-- The meaning of a pop (R220). -/
theorem exec_pop_eq (op : BitVec 6) (a : Operand) (s : State) :
    exec (.pop op a) s = complete s ((store s 0 (zext24 s.p ||| s.params.popMark.value)).bind fun t =>
      .done (t, .branch (0o100#14 + op.setWidth 14))) := rfl

/-- Relative 0 is the location REL. -/
theorem location_zero (s : State) : location s 0 = s.rel.toNat := by
  have relative : isAbs 0 = false := by decide
  have sum : (0 : Word).toNat + s.rel.toNat = s.rel.toNat := Nat.zero_add _
  rw [location_relative s relative, sum]
  exact Nat.mod_eq_of_lt s.rel.isLt

/-- Settles O43: the store is at relative 0, allowed by a BOUND that is not 0. -/
theorem popStoresItsLinkAndVectors : Obligations.PopStoresItsLinkAndVectors := by
  intro s op a hb hl
  refine ⟨⟨0o100#14 + op.setWidth 14, ?target, ?exec⟩, fun v _ h => readByte_writeWord_outside _ v h⟩
  case target =>
    have := op.isLt
    rw [BitVec.toNat_add, BitVec.toNat_setWidth, show (0o100#14).toNat = 0o100 from rfl]
    omega
  case exec =>
    have stored := store_done (q := 0) (.inr hb) (by rwa [location_zero]) (zext24 s.p ||| s.params.popMark.value)
    rw [exec_pop_eq, stored, location_zero]
    rfl

/-- Settles O36: EXU is the operand word at the same state, whose own completion each part names. -/
theorem executeCompletes : Obligations.ExecuteCompletes := by
  intro s a b t q ht hq
  refine ⟨fun d word hd => ?lda, fun d word hd => ?ske, fun word => ?bru, fun word ha hl => ?brm,
    fun c u d hu word inner hd => ?nested⟩
  all_goals rw [exec_exu ht, word]
  case lda => exact (exec_lda_eq b s).trans (withOperand_done hq hd _)
  case ske => exact (exec_ske_eq b s).trans (withOperand_skips hq hd (s.ar == ·) beq_iff_eq)
  case bru => exact exec_bru hq
  case brm => exact exec_brm hq ha hl
  case nested =>
    rw [exec_exu hu, inner]
    exact (exec_lda_eq b s).trans (withOperand_done hq hd _)

end Sys2Proof.Machine

/-! Traps (60_exceptions.md): what a trap sequence leaves, and the instructions that always end in one. -/

namespace Sys2Proof.Machine

/-- Where its three locations exist, a trap is taken (R236). -/
theorem takeTrap_ready {s : State} (h : s.trapReady) (c : Cause) : takeTrap c s = .next (s.trapped c) := by
  rcases takeTrap_cases c s with ⟨-, e⟩ | ⟨absent, -⟩
  · exact e
  · exact absurd h absent

/-- Settles O44: `State.trapped` field by field, the saved P being the word the sequence wrote. -/
theorem trapSequenceLeaves : Obligations.TrapSequenceLeaves := by
  intro c s ready
  refine ⟨takeTrap_ready ready c, fun t ht => ?_⟩
  obtain ⟨-, rfl⟩ := takeTrap_next ht
  exact ⟨rfl, rfl, rfl, rfl, rfl, fun hm => readWord_writeWord_same hm _ _,
    fun b hb => readByte_writeWord_outside _ _ hb, rfl, rfl, rfl, rfl, rfl, rfl, rfl, rfl, rfl, rfl⟩

/-- An instruction that computes Q first takes the trap its body raises, where Q and the trap's locations exist. -/
theorem withAddress_trapped {s : State} {a : Operand} {q : Word} {c : Cause} {body : Word → Stage (State × Ending)}
    (ready : s.trapReady) (hq : ea s a = .done q) (hb : body q = .trap c) :
    withAddress s a body = .next (s.trapped c) := by
  simp [withAddress, hq, hb, takeTrap_ready ready]

/-- SHIFT with kind 5, 6 or 7 traps (R177). -/
theorem shiftBody_trap {q : Word} (h : 5 ≤ q.toNat / 2 ^ 8 % 8) (s : State) : shiftBody s q = .trap .illegalShift := by
  have none : shiftKindOf (shiftKind q) = none := by
    simp only [shiftKindOf, shiftKind_toNat]
    have range : q.toNat / 2 ^ 8 % 8 < 8 := Nat.mod_lt _ (by decide)
    generalize q.toNat / 2 ^ 8 % 8 = k at h range
    interval_cases k <;> rfl
  rw [shiftBody, none]

/-- Settles O45: each is `withAddress` over a body that traps, SHIFT by its kind. -/
theorem trapInstructionsTakeTheTrap : Obligations.TrapInstructionsTakeTheTrap := by
  intro s ready
  have traps {i : Instr} {a : Operand} {q : Word} {c : Cause} (hi : exec i s = withAddress s a fun _ => .trap c)
      (hq : ea s a = .done q) : exec i s = .next (s.trapped c) := hi.trans (withAddress_trapped ready hq rfl)
  refine ⟨fun a q hq => ⟨traps rfl hq, fun op => ?illegal, fun kind => ?shift⟩, fun w => ?rows⟩
  case illegal => exact ⟨traps rfl hq, traps rfl hq, traps rfl hq, traps rfl hq⟩
  case shift => exact (exec_shift_eq a s).trans (withAddress_trapped ready hq (shiftBody_trap kind s))
  case rows => exact ⟨traps rfl (ea_direct s w), traps rfl (ea_direct s w)⟩

/-- An instruction that only stores takes the trap of a store that is not allowed. -/
theorem storing_trapped {s : State} {a : Operand} {q : Word} (ready : s.trapReady) (hq : ea s a = .done q)
    (hr : isAbs q = false) (hb : s.bound.toNat ≤ q.toNat) (v : Word) :
    storing s a v = .next (s.trapped .storeProtect) :=
  withAddress_trapped ready hq (by simp only [store_trap hr hb, bind_trap])

/-- An instruction that reads D and stores at Q takes the trap of a store that is not allowed, where D exists. -/
theorem updating_trapped {s : State} {a : Operand} {q : Word} (ready : s.trapReady) (hq : ea s a = .done q)
    (hr : isAbs q = false) (hb : s.bound.toNat ≤ q.toNat) (hl : location s q < s.params.memWords) (f : Word → Word)
    (after : State → Word → State × Ending) : updating s a f after = .next (s.trapped .storeProtect) :=
  withAddress_trapped ready hq (by simp only [contents_ok hl, ofAccess_ok, bind_done, store_trap hr hb, bind_trap])

/-- Settles O46: BRM and the stores of both shapes raise the trap of `store_trap`, a pop at relative 0. -/
theorem storeProtectionTraps : Obligations.StoreProtectionTraps := by
  intro s ready
  refine ⟨fun a q hq hr hb => ?_, fun hb op a => ?_⟩
  · have brm : exec (.brm a) s = .next (s.trapped .storeProtect) :=
      (exec_brm_eq a s).trans (withAddress_trapped ready hq (by simp only [store_trap hr hb, bind_trap]))
    have stores := storing_trapped ready hq hr hb
    have updates := updating_trapped ready hq hr hb
    exact ⟨stores _, stores _, stores _, brm,
      fun hl => ⟨updates hl _ _, updates hl _ _, updates hl _ _, updates hl _ _⟩⟩
  · have stored := store_trap (s := s) (q := 0) (by decide) (by rw [hb]) (zext24 s.p ||| s.params.popMark.value)
    rw [exec_pop_eq, stored]
    exact takeTrap_ready ready _

end Sys2Proof.Machine

/-! What an instruction can do (40_execution_cycle.md R111 to R118), said once for every instruction: what it leaves when it
completes, and the outcomes it has. -/

namespace Sys2Proof.Machine

/-- An ending that an instruction may have: it steps P unless it skips or assigns P (R117). -/
def MayEnd (i : Instr) (e : Ending) : Prop := e = .step ∨ (i.maySkip = true ∧ e = .skip) ∨ i.assignsP = true

/-- Any instruction may step P. -/
theorem mayEnd_step {i : Instr} : MayEnd i .step := .inl rfl

/-- An instruction that may skip may end by a conditional skip. -/
theorem mayEnd_skipIf {i : Instr} (h : i.maySkip = true) (c : Bool) : MayEnd i (skipIf c) := by
  cases c with
  | true => exact .inr (.inl ⟨h, rfl⟩)
  | false => exact .inl rfl

/-- An instruction that may assign P may end in any way. -/
theorem mayEnd_branch {i : Instr} (h : i.assignsP = true) (e : Ending) : MayEnd i e := .inr (.inr h)

/-- The instruction `i` that began at `s` may leave `u`, P apart, and end by `e`: each register and bit is as it was or one that
`i` may write (10_state.md R21, R27, R31), memory is as it was but for the word at `q` where `i` stores, no trap is
recorded. -/
structure Completes (i : Instr) (s : State) (q : Word) (u : State) (e : Ending) : Prop where
  ar : u.ar = s.ar ∨ i.mayWriteA = true
  br : u.br = s.br ∨ i.mayWriteB = true
  xr : u.xr = s.xr ∨ i.mayWriteX = true
  p : u.p = s.p
  control : (u.rel = s.rel ∧ u.bound = s.bound ∧ u.ioctl = s.ioctl) ∨ (∃ w, i = .xca w) ∨ ∃ a, i = .rch a
  mode : u.mode = s.mode ∨ (∃ w, i = .xca w) ∨ (∃ a, i = .rch a) ∨ (∃ w, i = .pro w) ∨ ∃ a, i = .ups a
  protects : (u.sched = s.sched ∧ u.prot = s.prot) ∨ (∃ w, i = .pro w) ∨ (∃ w, i = .upr w) ∨ ∃ a, i = .ups a
  mem : u.mem = s.mem ∨
    (i.storesMemory = true ∧ location s q < s.params.memWords ∧ ∃ v, u.mem = writeWord s.mem (location s q) v)
  events : u.events = s.events ∨ ∃ v, u.events = v :: s.events ∧ ∀ c, v ≠ .trap c
  params : u.params = s.params
  arrivals : u.arrivals = s.arrivals
  hung : u.hung = s.hung
  ending : MayEnd i e

namespace Completes
variable {i : Instr} {s : State} {q : Word} {e : Ending}

/-- An instruction that changes A, B and X at most. -/
theorem central {a b x : Word} (ha : a = s.ar ∨ i.mayWriteA = true) (hb : b = s.br ∨ i.mayWriteB = true)
    (hx : x = s.xr ∨ i.mayWriteX = true) (he : MayEnd i e) : Completes i s q { s with ar := a, br := b, xr := x } e :=
  ⟨ha, hb, hx, rfl, .inl ⟨rfl, rfl, rfl⟩, .inl rfl, .inl ⟨rfl, rfl⟩, .inl rfl, .inl rfl, rfl, rfl, rfl, he⟩

/-- An instruction that changes nothing but P. -/
theorem unchanged (he : MayEnd i e) : Completes i s q s e := central (.inl rfl) (.inl rfl) (.inl rfl) he

/-- An instruction that changes A. -/
theorem writesA {a : Word} (h : i.mayWriteA = true) : Completes i s q { s with ar := a } .step :=
  central (.inr h) (.inl rfl) (.inl rfl) mayEnd_step

/-- An instruction that changes B. -/
theorem writesB {b : Word} (h : i.mayWriteB = true) : Completes i s q { s with br := b } .step :=
  central (.inl rfl) (.inr h) (.inl rfl) mayEnd_step

/-- An instruction that changes X. -/
theorem writesX {x : Word} (h : i.mayWriteX = true) (he : MayEnd i e) : Completes i s q { s with xr := x } e :=
  central (.inl rfl) (.inl rfl) (.inr h) he

/-- An instruction that changes A and B. -/
theorem writesAB {a b : Word} (ha : i.mayWriteA = true) (hb : i.mayWriteB = true) :
    Completes i s q { s with ar := a, br := b } .step := central (.inr ha) (.inr hb) (.inl rfl) mayEnd_step

/-- An instruction that changes central registers and control registers: XCA and RCH. -/
theorem changes {a b x mode rel ioctl bound : Word} (ha : i.mayWriteA = true) (hb : b = s.br ∨ i.mayWriteB = true)
    (hx : x = s.xr ∨ i.mayWriteX = true) (hi : (∃ w, i = .xca w) ∨ ∃ a, i = .rch a) :
    Completes i s q
      { s with ar := a, br := b, xr := x, mode := mode, rel := rel, ioctl := ioctl, bound := bound } .step :=
  ⟨.inr ha, hb, hx, rfl, .inr hi, .inr (hi.imp_right .inl), .inl ⟨rfl, rfl⟩, .inl rfl, .inl rfl, rfl, rfl, rfl,
    mayEnd_step⟩

/-- An instruction that emits something other than a trap. -/
theorem emits {b : Word} {n : Nat} {v : Event} (hb : b = s.br ∨ i.mayWriteB = true) (hv : ∀ c, v ≠ .trap c) :
    Completes i s q { s with br := b, draws := n, events := v :: s.events } .step :=
  ⟨.inl rfl, hb, .inl rfl, rfl, .inl ⟨rfl, rfl, rfl⟩, .inl rfl, .inl ⟨rfl, rfl⟩, .inl rfl, .inr ⟨v, rfl, hv⟩,
    rfl, rfl, rfl, mayEnd_step⟩

/-- PRO, UPR and UPS: MODE, the protects and schedule mode. -/
theorem signals {mode : Word} {sched : Bool} {prot : BitVec 8} {v : Event} (hv : ∀ c, v ≠ .trap c)
    (hm : mode = s.mode ∨ (∃ w, i = .pro w) ∨ ∃ a, i = .ups a)
    (hi : (∃ w, i = .pro w) ∨ (∃ w, i = .upr w) ∨ ∃ a, i = .ups a) :
    Completes i s q { s with mode := mode, sched := sched, prot := prot, events := v :: s.events } .step :=
  ⟨.inl rfl, .inl rfl, .inl rfl, rfl, .inl ⟨rfl, rfl, rfl⟩, hm.imp_right (.inr ∘ .inr), .inr hi, .inl rfl,
    .inr ⟨v, rfl, hv⟩, rfl, rfl, rfl, mayEnd_step⟩

/-- An instruction that stores at Q, and changes A at most. -/
theorem stores {a v : Word} (hi : i.storesMemory = true) (hl : location s q < s.params.memWords)
    (ha : a = s.ar ∨ i.mayWriteA = true) (he : MayEnd i e) :
    Completes i s q { s with ar := a, mem := writeWord s.mem (location s q) v } e :=
  ⟨ha, .inl rfl, .inl rfl, rfl, .inl ⟨rfl, rfl, rfl⟩, .inl rfl, .inl ⟨rfl, rfl⟩, .inr ⟨hi, hl, v, rfl⟩, .inl rfl,
    rfl, rfl, rfl, he⟩

/-- An instruction that completes takes no trap. -/
theorem trapTaken_eq_none {u : State} (h : Completes i s q u e) : trapTaken s (u.endWith e) = none := by
  rcases h.events with he | ⟨v, he, hv⟩
  · exact trapTaken_of_events_eq he
  · cases v <;> simp [trapTaken, he] at hv ⊢

end Completes

/-- How what an instruction does once Q is known can end; it cannot be endless. -/
inductive BodyEnds (i : Instr) (s : State) (q : Word) : Stage (State × Ending) → Prop
  | done {u : State} {e : Ending} (h : Completes i s q u e) : BodyEnds i s q (.done (u, e))
  | trap {c : Cause} (h : i.neverTraps = false) : BodyEnds i s q (.trap c)
  | fault {loc : Nat} (h : s.params.memWords ≤ loc) : BodyEnds i s q (.fault (.absentLocation loc))
  | refused (h : (∃ a, i = .ups a) ∨ ∃ w, i = .upsUndefined w) : BodyEnds i s q (.refused .undefinedSignal)

/-- The instruction `i` at `s` computes Q from the address part `a` and then does what `BodyEnds` describes. -/
def Computes (i : Instr) (s : State) (a : Operand) : Prop :=
  ∃ body, exec i s = withAddress s a body ∧ ∀ q, BodyEnds i s q (body q)

section Shapes
variable {i : Instr} {s : State} {a : Operand}

/-- An instruction whose body is always done. -/
theorem computes_of_done {f : Word → State} {g : Word → Ending}
    (hi : exec i s = withAddress s a fun q => .done (f q, g q)) (h : ∀ q, Completes i s q (f q) (g q)) : Computes i s a :=
  ⟨_, hi, fun q => .done (h q)⟩

/-- An instruction whose body always traps. -/
theorem computes_of_trap {c : Cause} (hi : exec i s = withAddress s a fun _ => .trap c) (h : i.neverTraps = false) :
    Computes i s a := ⟨_, hi, fun _ => .trap h⟩

/-- An instruction whose formula names D is one that reads D once Q is known. -/
theorem withOperand_eq_withAddress (s : State) (a : Operand) (body : Word → State × Ending) :
    withOperand s a body = withAddress s a fun q => (Stage.ofAccess (contents s q)).bind fun d => .done (body d) := by
  rw [withOperand, withAddress, operandWord]
  cases ea s a <;> rfl

/-- An instruction whose formula names D. -/
theorem computes_of_operand {body : Word → State × Ending} (hi : exec i s = withOperand s a body)
    (h : ∀ q d, Completes i s q (body d).1 (body d).2) : Computes i s a := by
  refine ⟨_, hi.trans (withOperand_eq_withAddress s a body), fun q => ?_⟩
  rcases contents_cases s q with ⟨-, e⟩ | ⟨hl, e⟩
  · rw [e]
    exact .done (h q _)
  · rw [e]
    exact .fault hl

/-- What follows a store at Q: it is done, or traps, or faults. -/
theorem bodyEnds_store {q v : Word} {f : State → State × Ending} (hn : i.neverTraps = false)
    (h : location s q < s.params.memWords →
      Completes i s q (f { s with mem := writeWord s.mem (location s q) v }).1
        (f { s with mem := writeWord s.mem (location s q) v }).2) :
    BodyEnds i s q ((store s q v).bind fun t => .done (f t)) := by
  rcases store_cases s q v with ⟨-, hl, e⟩ | ⟨-, hl, e⟩ | ⟨-, e⟩
  · rw [e]
    exact .done (h hl)
  · rw [e]
    exact .fault hl
  · rw [e]
    exact .trap hn

/-- An instruction that only stores. -/
theorem computes_of_storing {v : Word} (hi : exec i s = storing s a v) (hn : i.neverTraps = false)
    (hs : i.storesMemory = true) : Computes i s a :=
  ⟨_, hi, fun _ => bodyEnds_store hn fun hl => .stores hs hl (.inl rfl) mayEnd_step⟩

/-- An instruction that reads D and stores at Q. -/
theorem computes_of_updating {f : Word → Word} {after : State → Word → State × Ending}
    (hi : exec i s = updating s a f after) (hn : i.neverTraps = false)
    (h : ∀ q d, location s q < s.params.memWords →
      Completes i s q (after { s with mem := writeWord s.mem (location s q) (f d) } d).1
        (after { s with mem := writeWord s.mem (location s q) (f d) } d).2) : Computes i s a := by
  refine ⟨_, hi, fun q => ?_⟩
  rcases contents_cases s q with ⟨-, e⟩ | ⟨hl, e⟩
  · rw [e]
    exact bodyEnds_store (f := fun t => after t _) hn (h q _)
  · rw [e]
    exact .fault hl

end Shapes

/-- SHIFT's body moves the pair, or traps (R170, R177). -/
theorem shift_computes (a : Operand) (s : State) : Computes (.shift a) s a := by
  refine ⟨shiftBody s, exec_shift_eq a s, fun q => ?_⟩
  unfold shiftBody
  split
  · exact .done (.writesAB rfl rfl)
  · exact .trap rfl

/-- RCH's body is the change that Q names (R180). -/
theorem rch_computes (a : Operand) (s : State) : Computes (.rch a) s a :=
  computes_of_done (exec_rch_eq a s) fun q => by
    rw [change_frame q s]
    exact .changes rfl (.inr rfl) (.inr rfl) (.inr ⟨a, rfl⟩)

/-- XCA's body exchanges A and a control register (R181). -/
theorem xca_computes (w : RelAddr) (s : State) : Computes (.xca w) s (.direct w) :=
  computes_of_done (exec_xca_eq w s) fun q => by
    rw [exchangeControl_frame q s]
    exact .changes rfl (.inl rfl) (.inl rfl) (.inl ⟨w, rfl⟩)

/-- UPS's body is the sub-case that Q names, of which 3 is refused (R212, R214). -/
theorem ups_computes (a : Operand) (s : State) : Computes (.ups a) s a := by
  refine ⟨fun q => signal q s, exec_ups_eq a s, fun q => ?_⟩
  have ups : ∃ b, Instr.ups a = .ups b := ⟨a, rfl⟩
  simp only [signal]
  split
  · exact .done (.emits (.inl rfl) nofun)
  · exact .done (.signals nofun (.inl rfl) (.inr (.inr ups)))
  · exact .done (.signals nofun (.inr (.inr ups)) (.inr (.inr ups)))
  · exact .refused (.inl ups)

/-- Every instruction with an address part but EXU computes Q and then does what its row may do. -/
theorem exec_computes (s : State) :
    ∀ (i : Instr) (a : Operand), i.isExecute = false → i.addressPart = some a → Computes i s a
  | .hlt _, _, _, rfl => computes_of_trap rfl rfl
  | .bru _, _, _, rfl => computes_of_done rfl fun _ => .unchanged (mayEnd_branch rfl _)
  | .etr _, _, _, rfl => computes_of_operand rfl fun _ _ => .writesA rfl
  | .mrg _, _, _, rfl => computes_of_operand rfl fun _ _ => .writesA rfl
  | .eor _, _, _, rfl => computes_of_operand rfl fun _ _ => .writesA rfl
  | .nop _, _, _, rfl => computes_of_done rfl fun _ => .unchanged mayEnd_step
  | .sta _, _, _, rfl => computes_of_storing rfl rfl rfl
  | .stb _, _, _, rfl => computes_of_storing rfl rfl rfl
  | .stx _, _, _, rfl => computes_of_storing rfl rfl rfl
  | .brx _, _, _, rfl => computes_of_done rfl fun _ => .writesX rfl (mayEnd_branch rfl _)
  | .brm _, _, _, rfl => ⟨_, rfl, fun _ => bodyEnds_store rfl fun hl => .stores rfl hl (.inl rfl) (mayEnd_branch rfl _)⟩
  | .upot _, _, _, rfl => computes_of_done rfl fun _ => .emits (.inl rfl) nofun
  | .upin _, _, _, rfl => computes_of_done rfl fun _ => .emits (.inr rfl) nofun
  | .rch a, _, _, rfl => rch_computes a s
  | .ske _, _, _, rfl => computes_of_operand rfl fun _ _ => .unchanged (mayEnd_skipIf rfl _)
  | .brr _, _, _, rfl => computes_of_operand rfl fun _ _ => .unchanged (mayEnd_branch rfl _)
  | .skb _, _, _, rfl => computes_of_operand rfl fun _ _ => .unchanged (mayEnd_skipIf rfl _)
  | .skn _, _, _, rfl => computes_of_operand rfl fun _ _ => .unchanged (mayEnd_skipIf rfl _)
  | .sub _, _, _, rfl => computes_of_operand rfl fun _ _ => .writesA rfl
  | .add _, _, _, rfl => computes_of_operand rfl fun _ _ => .writesA rfl
  | .skr _, _, _, rfl => computes_of_updating rfl rfl fun _ _ hl => .stores rfl hl (.inl rfl) (mayEnd_skipIf rfl _)
  | .min _, _, _, rfl => computes_of_updating rfl rfl fun _ _ hl => .stores rfl hl (.inl rfl) mayEnd_step
  | .xma _, _, _, rfl => computes_of_updating rfl rfl fun _ _ hl => .stores rfl hl (.inr rfl) mayEnd_step
  | .adm _, _, _, rfl => computes_of_updating rfl rfl fun _ _ hl => .stores rfl hl (.inl rfl) mayEnd_step
  | .shift a, _, _, rfl => shift_computes a s
  | .skm _, _, _, rfl => computes_of_operand rfl fun _ _ => .unchanged (mayEnd_skipIf rfl _)
  | .ldx _, _, _, rfl => computes_of_operand rfl fun _ _ => .writesX rfl mayEnd_step
  | .ska _, _, _, rfl => computes_of_operand rfl fun _ _ => .unchanged (mayEnd_skipIf rfl _)
  | .skg _, _, _, rfl => computes_of_operand rfl fun _ _ => .unchanged (mayEnd_skipIf rfl _)
  | .ldb _, _, _, rfl => computes_of_operand rfl fun _ _ => .writesB rfl
  | .lda _, _, _, rfl => computes_of_operand rfl fun _ _ => .writesA rfl
  | .eax _, _, _, rfl => computes_of_done rfl fun _ => .writesX rfl mayEnd_step
  | .ups a, _, _, rfl => ups_computes a s
  | .illegal60 _ _, _, _, rfl => computes_of_trap rfl rfl
  | .illegal50 _ _, _, _, rfl => computes_of_trap rfl rfl
  | .illegal44 _ _, _, _, rfl => computes_of_trap rfl rfl
  | .illegal42 _ _, _, _, rfl => computes_of_trap rfl rfl
  | .lcy _, _, _, rfl => computes_of_done rfl fun _ => .writesAB rfl rfl
  | .lsh _, _, _, rfl => computes_of_done rfl fun _ => .writesAB rfl rfl
  | .rsh _, _, _, rfl => computes_of_done rfl fun _ => .writesAB rfl rfl
  | .lrsh _, _, _, rfl => computes_of_done rfl fun _ => .writesAB rfl rfl
  | .rcy _, _, _, rfl => computes_of_done rfl fun _ => .writesAB rfl rfl
  | .shiftTrap5 _, _, _, rfl => computes_of_trap rfl rfl
  | .shiftTrap6 _, _, _, rfl => computes_of_trap rfl rfl
  | .xca w, _, _, rfl => xca_computes w s
  | .cca _, _, _, rfl => computes_of_done rfl fun _ => .writesA rfl
  | .clab _, _, _, rfl => computes_of_done rfl fun _ => .writesAB rfl rfl
  | .cla _, _, _, rfl => computes_of_done rfl fun _ => .writesA rfl
  | .clb _, _, _, rfl => computes_of_done rfl fun _ => .writesB rfl
  | .clx _, _, _, rfl => computes_of_done rfl fun _ => .writesX rfl mayEnd_step
  | .cab _, _, _, rfl => computes_of_done rfl fun _ => .writesB rfl
  | .cba _, _, _, rfl => computes_of_done rfl fun _ => .writesA rfl
  | .xab _, _, _, rfl => computes_of_done rfl fun _ => .writesAB rfl rfl
  | .cbx _, _, _, rfl => computes_of_done rfl fun _ => .writesX rfl mayEnd_step
  | .cxb _, _, _, rfl => computes_of_done rfl fun _ => .writesB rfl
  | .xxb _, _, _, rfl => computes_of_done rfl fun _ => .central (.inl rfl) (.inr rfl) (.inr rfl) mayEnd_step
  | .cxa _, _, _, rfl => computes_of_done rfl fun _ => .writesA rfl
  | .cax _, _, _, rfl => computes_of_done rfl fun _ => .writesX rfl mayEnd_step
  | .xxa _, _, _, rfl => computes_of_done rfl fun _ => .central (.inr rfl) (.inl rfl) (.inr rfl) mayEnd_step
  | .cna _, _, _, rfl => computes_of_done rfl fun _ => .writesA rfl
  | .str _, _, _, rfl => computes_of_done rfl fun _ => .emits (.inl rfl) nofun
  | .upr w, _, _, rfl => computes_of_done rfl fun _ => .signals nofun (.inl rfl) (.inr (.inl ⟨w, rfl⟩))
  | .pro w, _, _, rfl => computes_of_done rfl fun _ => .signals nofun (.inr (.inl ⟨w, rfl⟩)) (.inl ⟨w, rfl⟩)
  | .upsUndefined w, _, _, rfl => ⟨_, rfl, fun _ => .refused (.inr ⟨w, rfl⟩)⟩

end Sys2Proof.Machine

/-! The outcomes of an instruction: those of one that is no EXU, and of EXU through the word it executes. -/

namespace Sys2Proof.Machine

/-- The outcomes of an instruction that is no EXU; `completes` and `hangs` say what its effective address was (a pop has none and
stores at relative 0). -/
inductive Outcome (i : Instr) (s : State) : Result → Prop
  | completes {q : Word} {u : State} {e : Ending} (hq : ∀ a, i.addressPart = some a → ea s a = .done q)
      (pop : i.addressPart = none → q = 0) (h : Completes i s q u e) : Outcome i s (.next (u.endWith e))
  | traps {c : Cause} (h : i.neverTraps = false) (ready : s.trapReady) : Outcome i s (.next (s.trapped c))
  | hangs {a : Operand} (ha : i.addressPart = some a) (endless : ea s a = .endless) : Outcome i s (.next s.hang)
  | faults {loc : Nat} (h : s.params.memWords ≤ loc) : Outcome i s (.fault (.absentLocation loc))
  | refuses (h : (∃ a, i = .ups a) ∨ ∃ w, i = .upsUndefined w) : Outcome i s (.refused .undefinedSignal)

/-- The outcome of a body, where what it took Q for is Q. -/
theorem complete_outcome {i : Instr} {s : State} {q : Word} {r : Stage (State × Ending)}
    (hq : ∀ a, i.addressPart = some a → ea s a = .done q) (pop : i.addressPart = none → q = 0) (h : BodyEnds i s q r) :
    Outcome i s (complete s r) := by
  cases h with
  | done h => exact .completes hq pop h
  | @trap c h =>
    rcases takeTrap_cases c s with ⟨ready, e⟩ | ⟨-, loc, hl, e⟩
    · rw [complete_trap, e]
      exact .traps h ready
    · rw [complete_trap, e]
      exact .faults hl
  | fault h => exact .faults h
  | refused h => exact .refuses h

/-- An instruction without an address part is a pop (R112). -/
theorem addressPart_eq_none : ∀ {i : Instr}, i.addressPart = none → ∃ op a, i = .pop op a
  | .pop op a, _ => ⟨op, a, rfl⟩

/-- What an instruction that is no EXU can do. -/
theorem exec_outcome {i : Instr} (s : State) (hi : i.isExecute = false) : Outcome i s (exec i s) := by
  cases hp : i.addressPart with
  | none =>
    obtain ⟨op, a, rfl⟩ := addressPart_eq_none hp
    rw [exec_pop_eq]
    exact complete_outcome nofun (fun _ => rfl)
      (bodyEnds_store rfl fun hl => .stores rfl hl (.inl rfl) (mayEnd_branch rfl _))
  | some a =>
    obtain ⟨body, hx, ends⟩ := exec_computes s i a hi hp
    rw [hx, withAddress]
    rcases ea_cases s a with ⟨q, hq⟩ | endless | ⟨loc, hl, hf⟩
    · rw [hq, bind_done]
      refine complete_outcome (fun b hb => ?_) (fun hn => by simp [hp] at hn) (ends q)
      obtain rfl : a = b := by simpa [hp] using hb
      exact hq
    · rw [endless]
      exact .hangs hp endless
    · rw [hf]
      exact .faults hl

/-- An instruction is no EXU, or an EXU that does what some instruction that is no EXU does, or hangs, or faults. -/
theorem exec_reduces (i : Instr) (s : State) :
    (∃ j, (j = i ∨ ∃ a, i = .exu a) ∧ Outcome j s (exec i s)) ∨ exec i s = .next s.hang ∨
      ∃ loc, s.params.memWords ≤ loc ∧ exec i s = .fault (.absentLocation loc) := by
  rcases isExecute_cases i with other | ⟨a, rfl⟩
  · exact .inl ⟨i, .inl rfl, exec_outcome s other⟩
  · rcases execExu_cases a s with ⟨j, other, e⟩ | rest
    · exact .inl ⟨j, .inr ⟨a, rfl⟩, e ▸ exec_outcome s other⟩
    · exact .inr rest

/-- How any instruction comes to a next state: it, or the instruction that it executes, completes, or it traps, or it hangs. -/
theorem exec_next {i : Instr} {s t : State} (h : exec i s = .next t) :
    (∃ j q u e, Completes j s q u e ∧ t = u.endWith e) ∨ (∃ c, s.trapReady ∧ t = s.trapped c) ∨ t = s.hang := by
  rcases exec_reduces i s with ⟨j, -, o⟩ | hang | ⟨_, _, fault⟩
  · rw [h] at o
    cases o with
    | completes _ _ done => exact .inl ⟨_, _, _, _, done, rfl⟩
    | traps _ ready => exact .inr (.inl ⟨_, ready, rfl⟩)
    | hangs _ _ => exact .inr (.inr rfl)
  · exact .inr (.inr (by simpa [h] using hang))
  · simp [h] at fault

/-- An instruction that hangs takes no trap. -/
theorem trapTaken_hang (s : State) : trapTaken s s.hang = none := trapTaken_of_events_eq rfl

/-- Settles O47: of the ways to a next state only a trap sequence records a trap, and it is that of the state begun in. -/
theorem trapsArePrecise : Obligations.TrapsArePrecise := by
  intro i s t c h taken
  rcases exec_next h with ⟨j, q, u, e, done, rfl⟩ | ⟨d, -, rfl⟩ | rfl
  · simp [done.trapTaken_eq_none] at taken
  · obtain rfl : d = c := by simpa using taken
    rfl
  · simp [trapTaken_hang] at taken

/-- Where Q and its kind are those of a shift, SHIFT takes no trap (R170). -/
theorem shift_trapTaken {a : Operand} {q : Word} {s t : State} (hq : ea s a = .done q) (hk : q.toNat / 2 ^ 8 % 8 ≤ 4)
    (h : exec (.shift a) s = .next t) : trapTaken s t = none := by
  obtain ⟨kind, named, -⟩ := shiftKindOf_of_le hk
  rw [exec_shift_eq, withAddress_shiftPair hq kind (by rw [shiftBody, named])] at h
  cases h
  exact trapTaken_of_events_eq rfl

/-- Settles O48: the outcomes of an instruction that never traps record no trap; SHIFT by its kind, EXU by its operand word. -/
theorem instructionsThatNeverTrap : Obligations.InstructionsThatNeverTrap := by
  refine ⟨fun i s t never h => ?_, fun a q s t hq hk h => shift_trapTaken hq hk h, fun _ _ _ hw => exec_exu hw⟩
  have other : i.isExecute = false := by
    rcases isExecute_cases i with other | ⟨a, rfl⟩
    · exact other
    · cases never
  have o := exec_outcome s other
  rw [h] at o
  cases o with
  | completes _ _ done => exact done.trapTaken_eq_none
  | traps traps _ => simp [never] at traps
  | hangs _ _ => exact trapTaken_hang s

/-- An instruction faults at a location that does not exist (20_memory.md R57). -/
theorem exec_fault {i : Instr} {s : State} {f : Fault} (h : exec i s = .fault f) :
    ∃ loc, s.params.memWords ≤ loc ∧ f = .absentLocation loc := by
  rcases exec_reduces i s with ⟨j, -, o⟩ | hang | ⟨loc, hl, fault⟩
  · rw [h] at o
    cases o with
    | faults hl => exact ⟨_, hl, rfl⟩
  · simp [h] at hang
  · exact ⟨loc, hl, by simpa [h] using fault⟩

/-- A move of the outside world faults at a location that does not exist. -/
theorem takeArrival_fault {m : Arrival} {s : State} {f : Fault} (h : takeArrival m s = .fault f) :
    ∃ loc, s.params.memWords ≤ loc ∧ f = .absentLocation loc := by
  cases m with
  | start =>
    rcases takeTrap_cases .start s with ⟨_, e⟩ | ⟨_, loc, hl, e⟩
    · simp [takeArrival, e] at h
    · exact ⟨loc, hl, by simpa [takeArrival, e] using h.symm⟩
  | write loc v =>
    rcases memWrite_cases s loc v with ⟨_, e⟩ | ⟨hl, e⟩
    · simp [takeArrival, e] at h
    · exact ⟨loc, hl, by simpa [takeArrival, e] using h.symm⟩
  | schedule on => simp [takeArrival] at h
  | protects set => simp [takeArrival] at h

/-- A step faults at a location that does not exist: in the move, in the fetch or in the instruction. -/
theorem step_fault {s : State} {f : Fault} (h : step s = .fault f) :
    ∃ loc, s.params.memWords ≤ loc ∧ f = .absentLocation loc := by
  cases hh : s.hung with
  | true => simp [step_hung hh] at h
  | false =>
    cases hm : s.nextMove with
    | some m => exact takeArrival_fault (s := s.pastMove) ((step_move hh hm).symm.trans h)
    | none =>
      rcases contents_cases s (zext24 s.p) with ⟨_, e⟩ | ⟨hl, e⟩
      · exact exec_fault (s := s.pastMove) ((step_instruction hh hm e).symm.trans h)
      · have fetched : fetch s = .error _ := e
        exact ⟨_, hl, by simpa [step, hh, hm, fetched] using h.symm⟩

/-- Settles O49: by the outcomes that fault and that refuse; an EXU is refused as the instruction it comes to. -/
theorem onlyStops : Obligations.OnlyStops := by
  refine ⟨fun _ _ _ h => exec_fault h, fun i s r h => ?_, fun _ _ h => step_fault h⟩
  rcases exec_reduces i s with ⟨j, same, o⟩ | hang | ⟨_, _, fault⟩
  · rw [h] at o
    cases o with
    | refuses row =>
      refine ⟨rfl, ?_⟩
      rcases same with rfl | exu
      · exact row.imp_right .inl
      · exact .inr (.inr exu)
  · simp [h] at hang
  · simp [h] at fault

/-- An EXU whose effective address computation never ends hangs. -/
theorem executeChain_of_endless {s : State} {a : Operand} (h : operandWord s a = .endless) (n : Nat) :
    executeChain (n + 1) a s = .next s.hang := by
  simp [executeChain, h]

/-- Settles O10: every instruction but EXU is `withAddress`, and an EXU has no operand word. -/
theorem endlessChainHangsEveryInstruction : Obligations.EndlessChainHangsEveryInstruction := by
  intro i a s hp endless
  rcases isExecute_cases i with other | ⟨b, rfl⟩
  · obtain ⟨body, hx, -⟩ := exec_computes s i a other hp
    rw [hx, withAddress, endless]
    rfl
  · obtain rfl : b = a := by simpa [Instr.addressPart] using hp
    have noWord : operandWord s b = .endless := by rw [operandWord, endless]; rfl
    exact executeChain_of_endless noWord _

end Sys2Proof.Machine

/-! What instructions leave unchanged: P, the central and control registers, memory. -/

namespace Sys2Proof.Machine

/-- Settles O50: an instruction that completes ends by an ending that it may have; traps, hanging and assigning P are excluded. -/
theorem instructionsEndByStepping : Obligations.InstructionsEndByStepping := by
  intro i s t h untrapped ends other keepsP
  have o := exec_outcome s other
  rw [h] at o
  cases o with
  | completes _ _ done =>
    rw [endWith_p, done.p]
    rcases done.ending with rfl | ⟨skips, rfl⟩ | assigns
    · exact .inl rfl
    · exact .inr ⟨skips, rfl⟩
    · simp [keepsP] at assigns
  | traps _ _ => simp at untrapped
  | hangs ha endless => exact absurd endless (ends _ ha)

/-- Settles O51: EXU may write each of the three; another instruction that completes writes those it may, and a trap or a chain
that never ends none. -/
theorem centralRegistersWrittenOnlyBy : Obligations.CentralRegistersWrittenOnlyBy := by
  intro i s t h
  rcases isExecute_cases i with other | ⟨a, rfl⟩
  · have o := exec_outcome s other
    rw [h] at o
    cases o with
    | completes _ _ done =>
      exact ⟨fun ne => done.ar.resolve_left ne, fun ne => done.br.resolve_left ne, fun ne => done.xr.resolve_left ne⟩
    | traps _ _ => exact ⟨fun ne => absurd rfl ne, fun ne => absurd rfl ne, fun ne => absurd rfl ne⟩
    | hangs _ _ => exact ⟨fun ne => absurd rfl ne, fun ne => absurd rfl ne, fun ne => absurd rfl ne⟩
  · exact ⟨fun _ => rfl, fun _ => rfl, fun _ => rfl⟩

/-- No instruction changes the open parameters or the pending moves of the outside world (log 4, log 7). -/
theorem exec_keeps_params_arrivals {i : Instr} {s t : State} (h : exec i s = .next t) :
    t.params = s.params ∧ t.arrivals = s.arrivals := by
  rcases exec_next h with ⟨j, q, u, e, done, rfl⟩ | ⟨c, -, rfl⟩ | rfl
  · exact ⟨done.params, done.arrivals⟩
  · exact ⟨rfl, rfl⟩
  · exact ⟨rfl, rfl⟩

/-- Settles O52: the alternatives of `Completes`, with the trap of the instruction where it takes one. -/
theorem controlRegistersWrittenOnlyBy : Obligations.ControlRegistersWrittenOnlyBy := by
  intro i s t h
  suffices written :
      (t.rel ≠ s.rel ∨ t.bound ≠ s.bound ∨ t.ioctl ≠ s.ioctl →
        (∃ c, trapTaken s t = some c) ∨ (∃ w, i = .xca w) ∨ (∃ a, i = .rch a) ∨ ∃ a, i = .exu a) ∧
      (t.mode ≠ s.mode →
        (∃ w, i = .xca w) ∨ (∃ a, i = .rch a) ∨ (∃ w, i = .pro w) ∨ (∃ a, i = .ups a) ∨ ∃ a, i = .exu a) ∧
      (t.sched ≠ s.sched ∨ t.prot ≠ s.prot →
        (∃ w, i = .pro w) ∨ (∃ w, i = .upr w) ∨ (∃ a, i = .ups a) ∨ ∃ a, i = .exu a) by
    obtain ⟨control, mode, protects⟩ := written
    exact ⟨control, mode, protects, exec_keeps_params_arrivals h⟩
  rcases isExecute_cases i with other | exu
  · have o := exec_outcome s other
    rw [h] at o
    cases o with
    | completes _ _ done =>
      refine ⟨fun ne => ?control, fun ne => ?mode, fun ne => ?protects⟩
      case control =>
        rcases done.control with ⟨rel, bound, ioctl⟩ | xca | rch
        · simp [rel, bound, ioctl] at ne
        · exact .inr (.inl xca)
        · exact .inr (.inr (.inl rch))
      case mode =>
        rcases done.mode with mode | xca | rch | pro | ups
        · exact absurd mode ne
        · exact .inl xca
        · exact .inr (.inl rch)
        · exact .inr (.inr (.inl pro))
        · exact .inr (.inr (.inr (.inl ups)))
      case protects =>
        rcases done.protects with ⟨sched, prot⟩ | pro | upr | ups
        · simp [sched, prot] at ne
        · exact .inl pro
        · exact .inr (.inl upr)
        · exact .inr (.inr (.inl ups))
    | traps _ _ =>
      exact ⟨fun _ => .inl ⟨_, trapTaken_trapped s _⟩, fun ne => absurd rfl ne, fun ne => by simp [State.trapped] at ne⟩
    | hangs _ _ => exact ⟨fun ne => by simp at ne, fun ne => absurd rfl ne, fun ne => by simp at ne⟩
  · exact ⟨fun _ => .inr (.inr (.inr exu)), fun _ => .inr (.inr (.inr (.inr exu))), fun _ => .inr (.inr (.inr exu))⟩

/-- An instruction that completes leaves every byte outside the word at `q` as it was. -/
theorem Completes.readByte_outside {i : Instr} {s u : State} {q : Word} {e : Ending} (h : Completes i s q u e) {b : Nat}
    (hb : b < 3 * location s q ∨ 3 * location s q + 3 ≤ b) : readByte u.mem b = readByte s.mem b := by
  rcases h.mem with same | ⟨-, -, v, written⟩
  · rw [same]
  · rw [written, readByte_writeWord_outside _ _ hb]

/-- Settles O53: memory as `Completes` has it, the word stored to being at Q, or at relative 0 for a pop. -/
theorem memoryChangesOnlyWhereStored : Obligations.MemoryChangesOnlyWhereStored := by
  intro i s t h untrapped
  rcases isExecute_cases i with other | ⟨a, rfl⟩
  · have o := exec_outcome s other
    rw [h] at o
    cases o with
    | @completes q u e hq pop done =>
      refine ⟨fun keeps _ b => ?none, fun _ a q' ha hq' b hb => ?atQ, fun op a hi b hb => ?pop⟩
      case none =>
        rcases done.mem with same | ⟨stores, -⟩
        · rw [endWith_mem, same]
        · simp [keeps] at stores
      case atQ =>
        obtain rfl : q = q' := by simpa [hq a ha] using hq'
        exact done.readByte_outside hb
      case pop =>
        obtain rfl := pop (by rw [hi]; rfl)
        exact done.readByte_outside (by rwa [location_zero])
    | traps _ _ => simp at untrapped
    | hangs _ _ => exact ⟨fun _ _ _ => rfl, fun _ _ _ _ _ _ _ => rfl, fun _ _ _ _ _ => rfl⟩
  · exact ⟨fun _ notExu => (nomatch notExu), fun stores => (nomatch stores), fun _ _ pop => (nomatch pop)⟩

end Sys2Proof.Machine

/-! Steps and runs (40_execution_cycle.md R110; 70_reset_and_hazards.md R264, R268): the invariant, reset, the fetch, the outside
world's moves. -/

namespace Sys2Proof.Machine

/-- A trap sequence keeps the invariant: it writes in a word that exists. -/
theorem takeTrap_keeps_inv {s : State} (inv : s.inv) (ready : s.trapReady) (c : Cause) : (s.trapped c).inv := by
  obtain ⟨valid, wf, inside⟩ := inv
  obtain ⟨-, -, exists2⟩ := ready
  exact ⟨valid, writeWord_wf wf _ _, writeWord_inside inside exists2 _⟩

/-- A move of the outside world keeps the invariant and the parameters. -/
theorem takeArrival_keeps_inv {m : Arrival} {s t : State} (inv : s.inv) (h : takeArrival m s = .next t) :
    t.inv ∧ t.params = s.params := by
  obtain ⟨valid, wf, inside⟩ := inv
  rcases takeArrival_next h with ⟨-, ready, rfl⟩ | ⟨loc, v, -, hl, rfl⟩ | ⟨on, -, rfl⟩ | ⟨set, -, rfl⟩
  · exact ⟨takeTrap_keeps_inv ⟨valid, wf, inside⟩ ready _, rfl⟩
  · exact ⟨⟨valid, writeWord_wf wf _ _, writeWord_inside inside hl _⟩, rfl⟩
  · exact ⟨⟨valid, wf, inside⟩, rfl⟩
  · exact ⟨⟨valid, wf, inside⟩, rfl⟩

/-- An instruction that completes keeps the invariant: it writes memory, if at all, in a word that exists. -/
theorem Completes.keeps_inv {i : Instr} {s u : State} {q : Word} {e : Ending} (inv : s.inv) (h : Completes i s q u e) :
    (u.endWith e).inv := by
  obtain ⟨valid, wf, inside⟩ := inv
  simp only [State.inv, endWith_params, endWith_mem, h.params]
  rcases h.mem with same | ⟨-, hl, v, written⟩
  · rw [same]
    exact ⟨valid, wf, inside⟩
  · rw [written]
    exact ⟨valid, writeWord_wf wf _ _, writeWord_inside inside hl _⟩

/-- An instruction keeps the invariant. -/
theorem exec_keeps_inv {i : Instr} {s t : State} (inv : s.inv) (h : exec i s = .next t) : t.inv := by
  rcases exec_next h with ⟨j, q, u, e, done, rfl⟩ | ⟨c, ready, rfl⟩ | rfl
  · exact done.keeps_inv inv
  · exact takeTrap_keeps_inv inv ready c
  · exact inv

/-- Settles O59: by the three ways to a next state, each of which keeps the invariant. -/
theorem stepKeepsTheInvariant : Obligations.StepKeepsTheInvariant := by
  intro s t inv h
  rcases step_next h with ⟨-, rfl⟩ | ⟨m, -, move⟩ | ⟨w, -, -, instr⟩
  · exact ⟨inv, rfl⟩
  · exact takeArrival_keeps_inv (s := s.pastMove) inv move
  · exact ⟨exec_keeps_inv (s := s.pastMove) inv instr, (exec_keeps_params_arrivals instr).1⟩

/-- Settles O58: the moves to come are no part of the invariant, which is evaluated on the rest of the state. -/
theorem resetMeetsTheInvariant : Obligations.ResetMeetsTheInvariant := by
  have reset : State.reset.inv := by decide
  exact ⟨reset, fun _ => reset⟩

/-- Settles O57: the trap's locations exist at power-on, and what the sequence leaves is evaluated. -/
theorem resetIsTheStartSequence : Obligations.ResetIsTheStartSequence := by
  have ready : State.powerOn.trapReady := by decide
  have left : State.powerOn.trapped .start = State.launched [] := by decide
  refine ⟨rfl, fun world => ?_, rfl, rfl, rfl, rfl⟩
  calc takeTrap .start { State.powerOn with arrivals := world }
      = .next { State.powerOn.trapped .start with arrivals := world } :=
        takeTrap_ready (s := { State.powerOn with arrivals := world }) ready .start
    _ = .next (State.launched world) := by rw [left]; rfl

/-- A machine in which an instruction never completes steps to itself, any number of times. -/
theorem run_hung {s : State} (h : s.hung = true) (n : Nat) : Sys2Proof.core.run n s = .next s := by
  induction n with
  | zero => rfl
  | succ n ih => rw [run_step n (step_hung h), ih]

/-- Settles O11: by `run_hung`. -/
theorem hungMachineStaysAsItIs : Obligations.HungMachineStaysAsItIs := fun _ n h => run_hung h n

/-- The location of the next instruction (40_execution_cycle.md R110). -/
theorem location_fetch (s : State) : location s (zext24 s.p) = (s.p.toNat + s.rel.toNat) % 2 ^ 24 := by
  have relative : isAbs (zext24 s.p) = false := by
    have := s.p.isLt
    rw [isAbs_eq_false_iff, zext24_toNat]
    omega
  rw [location_relative s relative, zext24_toNat]

/-- Where the location of the next instruction exists, the fetch gives the word there. -/
theorem fetch_ok {s : State} (h : (s.p.toNat + s.rel.toNat) % 2 ^ 24 < s.params.memWords) :
    fetch s = .ok (readWord s.mem ((s.p.toNat + s.rel.toNat) % 2 ^ 24)) := by
  rw [← location_fetch] at h ⊢
  exact contents_ok h

/-- The word placed by `withFetchWord` is the one fetched (log 13). -/
theorem fetch_withFetchWord {s : State} (hm : s.mem.wf) (h : (s.p.toNat + s.rel.toNat) % 2 ^ 24 < s.params.memWords)
    (w : Word) : fetch (s.withFetchWord 24 w.toNat) = .ok w := by
  have placed : BitVec.ofNat 24 (w.toNat % 2 ^ 24) = w := by
    rw [Nat.mod_eq_of_lt w.isLt, BitVec.ofNat_toNat, BitVec.setWidth_eq]
  have fetched := fetch_ok (s := s.withFetchWord 24 w.toNat) h
  rw [fetched]
  simp only [State.withFetchWord, placed, location_fetch]
  rw [readWord_writeWord_same hm]

/-- No move comes before an instruction placed by `withFetchWord` (log 13). -/
theorem nextMove_withFetchWord (s : State) (n w : Nat) : (s.withFetchWord n w).nextMove = none := by
  simp only [State.nextMove, State.withFetchWord]
  cases s.arrivals <;> rfl

/-- After an instruction placed by `withFetchWord` the outside world does what it would have done before it (log 13). -/
theorem pastMove_withFetchWord (s : State) (n w : Nat) :
    (s.withFetchWord n w).pastMove = { s.withFetchWord n w with arrivals := s.arrivals } := by
  simp only [State.pastMove, State.withFetchWord, quietFirst_tail]

/-- Settles O54: both parts are `step_instruction`, of the word at P as its bytes decode, and of the word placed. -/
theorem stepRunsTheDecodedInstruction : Obligations.StepRunsTheDecodedInstruction := by
  refine ⟨fun s i loc hh hm hloc hl _ bytes => ?_, fun s w hm hl => ?_⟩
  · subst hloc
    have word : decodeWord (readWord s.mem ((s.p.toNat + s.rel.toNat) % 2 ^ 24)) = i := by
      simpa [decode, readWord] using bytes
    rw [step_instruction hh hm (fetch_ok hl), word]
    rfl
  · rw [step_instruction rfl (nextMove_withFetchWord s _ _) (fetch_withFetchWord hm hl w), pastMove_withFetchWord]

/-- The next move of the outside world is the first of its list. -/
theorem nextMove_of_arrivals {s : State} {m : Option Arrival} {rest : List (Option Arrival)} (h : s.arrivals = m :: rest) :
    s.nextMove = m := by
  simp only [State.nextMove, h]
  cases m <;> rfl

/-- The first of the outside world's list is used up. -/
theorem pastMove_of_arrivals {s : State} {m : Option Arrival} {rest : List (Option Arrival)} (h : s.arrivals = m :: rest) :
    s.pastMove = { s with arrivals := rest } := by
  simp only [State.pastMove, h, List.tail_cons]

/-- Settles O55: a move is one step, taken in the state without it. -/
theorem outsideMovesComeBetweenInstructions : Obligations.OutsideMovesComeBetweenInstructions := by
  intro s m rest hh ha
  have move : step s = takeArrival m { s with arrivals := rest } := by
    rw [step_move hh (nextMove_of_arrivals ha), pastMove_of_arrivals ha]
  rw [move]
  refine ⟨?start, ?write, ?schedule, ?protects⟩
  case start =>
    rintro rfl ready
    exact takeTrap_ready (s := { s with arrivals := rest }) ready .start
  case write =>
    rintro loc v rfl hl
    simp [takeArrival, memWrite, hl]
  case schedule =>
    rintro on rfl
    rfl
  case protects =>
    rintro set rfl
    rfl

/-- The effective address does not depend on the moves to come. -/
theorem ea_pastMove (s : State) (a : Operand) : ea s.pastMove a = ea s a :=
  ea_congr (pastMove_xr s) (pastMove_rel s) (pastMove_mem s) (congrArg _ (pastMove_params s))
    (congrArg _ (pastMove_params s)) a

/-- The meaning of HLT (R203). -/
theorem exec_hlt_eq (a : Operand) (s : State) : exec (.hlt a) s = withAddress s a fun _ => .trap .halt := rfl

/-- Settles O60: the one step is the HLT's trap sequence, which ends the run. -/
theorem haltEndsTheRun : Obligations.HaltEndsTheRun := by
  intro s a q w n hh hm hf word hq ready
  have halt : exec (.hlt a) s.pastMove = .next (s.pastMove.trapped .halt) :=
    (exec_hlt_eq a s.pastMove).trans (withAddress_trapped ready ((ea_pastMove s a).trans hq) rfl)
  have stepped : step s = .next (s.pastMove.trapped .halt) := by rw [step_instruction hh hm hf, word, halt]
  have taken : trapTaken s (s.pastMove.trapped .halt) = some .halt := trapTaken_trapped s.pastMove .halt
  refine ⟨?_, rfl⟩
  rw [runToTrap, stepped]
  simp only [taken]
  rfl

end Sys2Proof.Machine

/-! The outside world's moves after an instruction (60_exceptions.md R233, R235; 10_state.md R31). -/

namespace Sys2Proof.Machine

/-- An instruction and then a move of the outside world: one step each. -/
theorem step_instruction_move {s t : State} {w : Word} {m : Arrival} {rest : List (Option Arrival)} (hh : s.hung = false)
    (hf : fetch s = .ok w) (ha : s.arrivals = none :: some m :: rest)
    (h : exec (decodeWord w) { s with arrivals := some m :: rest } = .next t) (ht : t.hung = false) :
    step s = .next t ∧ t.arrivals = some m :: rest ∧ step t = takeArrival m { t with arrivals := rest } := by
  have left : t.arrivals = some m :: rest := (exec_keeps_params_arrivals h).2
  refine ⟨?_, left, ?_⟩
  · rw [step_instruction hh (nextMove_of_arrivals ha) hf, pastMove_of_arrivals ha, h]
  · rw [step_move ht (nextMove_of_arrivals left), pastMove_of_arrivals left]

/-- A run of an instruction and then a move of the outside world. -/
theorem run_instruction_move {s t : State} {w : Word} {m : Arrival} {rest : List (Option Arrival)} (hh : s.hung = false)
    (hf : fetch s = .ok w) (ha : s.arrivals = none :: some m :: rest)
    (h : exec (decodeWord w) { s with arrivals := some m :: rest } = .next t) (ht : t.hung = false) :
    t.arrivals = some m :: rest ∧ Sys2Proof.core.run 2 s = takeArrival m { t with arrivals := rest } := by
  obtain ⟨first, left, second⟩ := step_instruction_move hh hf ha h ht
  exact ⟨left, by rw [run_step 1 first, run_one, second]⟩

/-- A run of an instruction that traps and then a Start does both trap sequences, in that order (R235). -/
theorem run_trap_start {s t : State} {w : Word} {c : Cause} {rest : List (Option Arrival)} (hh : s.hung = false)
    (hf : fetch s = .ok w) (ha : s.arrivals = none :: some .start :: rest)
    (h : exec (decodeWord w) { s with arrivals := some .start :: rest } = .next t) (taken : trapTaken s t = some c)
    (ready : t.trapReady) :
    t = { s with arrivals := some .start :: rest }.trapped c ∧
      Sys2Proof.core.run 2 s = .next ({ t with arrivals := rest }.trapped .start) := by
  have precise : t = { s with arrivals := some .start :: rest }.trapped c := trapsArePrecise _ _ _ _ h taken
  have ht : t.hung = false := by rw [precise]; exact hh
  refine ⟨precise, ?_⟩
  rw [(run_instruction_move hh hf ha h ht).2]
  exact takeTrap_ready (s := { t with arrivals := rest }) ready .start

/-- PRO saves schedule mode and leaves it; what the next fetch needs is as it was, but for P. -/
theorem exec_pro_leaves (w : RelAddr) (s : State) :
    ∃ t, exec (.pro w) s = .next t ∧ t.mode.getLsbD 20 = s.sched ∧ t.sched = false ∧ t.p = s.p + 1 ∧
      t.arrivals = s.arrivals ∧ t.hung = s.hung ∧ t.rel = s.rel ∧ t.mem = s.mem ∧ t.params = s.params :=
  ⟨_, exec_pro w s, (getLsbD_withScheduleBit _ _ _).trans (if_pos rfl), rfl, rfl, rfl, rfl, rfl, rfl, rfl⟩

/-- The fetch reads P, REL, memory and the parameters (40_execution_cycle.md R110). -/
theorem fetch_congr {s u : State} (hp : u.p = s.p) (hr : u.rel = s.rel) (hm : u.mem = s.mem) (ha : u.params = s.params) :
    fetch u = fetch s := by
  have place : location u (zext24 s.p) = location s (zext24 s.p) := by simp only [location, physical, hr]
  rw [fetch, fetch, contents, contents, memRead, memRead, hp, place, hm, ha]

/-- A run of PRO, the move that turns schedule mode on, and PRO. -/
theorem run_pro_schedule_pro {s : State} {v w : Word} {a b : RelAddr} {rest : List (Option Arrival)} (hh : s.hung = false)
    (hf : fetch s = .ok w) (ha : s.arrivals = none :: some (.schedule true) :: none :: rest) (hw : decodeWord w = .pro a)
    (hv : fetch { s with p := s.p + 1 } = .ok v) (hb : decodeWord v = .pro b) :
    ∃ u, Sys2Proof.core.run 3 s = .next u ∧ u.mode.getLsbD 20 = true ∧ u.sched = false ∧ u.p = s.p + 2 ∧
      u.arrivals = rest := by
  obtain ⟨t, pro, -, -, tp, -, th, tr, tm, tparams⟩ :=
    exec_pro_leaves a { s with arrivals := some (.schedule true) :: none :: rest }
  obtain ⟨first, -, second⟩ := step_instruction_move hh hf ha (hw ▸ pro) (th.trans hh)
  have fetched : fetch { t with arrivals := none :: rest, sched := true } = .ok v :=
    (fetch_congr (s := { s with p := s.p + 1 }) tp tr tm tparams).trans hv
  obtain ⟨u, pro', mode, sched, up, ua, -⟩ := exec_pro_leaves b { t with arrivals := rest, sched := true }
  have third : step { t with arrivals := none :: rest, sched := true } = .next u := by
    rw [step_instruction (s := { t with arrivals := none :: rest, sched := true }) (th.trans hh) rfl fetched, hb]
    exact pro'
  refine ⟨u, ?_, mode, sched, ?_, ua⟩
  · rw [run_step 2 first, run_step 1 second]
    exact (run_one _).trans third
  · calc u.p = s.p + 1 + 1 := up.trans (congrArg (· + 1) tp)
      _ = s.p + 2 := BitVec.add_assoc ..

/-- Settles O56: the three runs; the second Start saves the P = 3 that the trap before it left. -/
theorem outsideMovesFollowAnyInstruction : Obligations.OutsideMovesFollowAnyInstruction := by
  intro s rest w hh hf
  refine ⟨fun m t ha h ht => run_instruction_move hh hf ha h ht, fun c t ha h taken ready => ?_,
    fun a b v ha hw hv hb => run_pro_schedule_pro hh hf ha hw hv hb⟩
  obtain ⟨precise, run⟩ := run_trap_start hh hf ha h taken ready
  subst precise
  refine ⟨_, run, rfl, rfl, rfl, fun hm => ?_⟩
  exact readWord_writeWord_same (writeWord_wf hm _ _) _ _

end Sys2Proof.Machine
